-- ==== Sys2Proof/Word.lean ====
section
/-! DEFINITION. The word types of the machine and nothing else (spec/00_scope.md R4, R6). -/

namespace Sys2Proof

/-- One byte of memory (R20). -/
abbrev Byte := BitVec 8

/-- The contents of a general register: `XLEN_GPR` = 64 bits (R4, R10). -/
abbrev Word := BitVec 64

/-- An effective address as given to memory, and the program counter: 32 bits (R4, R14, R20). -/
abbrev Addr := BitVec 32

/-- An instruction word: `ILEN` = 32 bits (R4, R35). -/
abbrev InstrWord := BitVec 32

/-- A general register's number, 0 to 31 (R10). -/
abbrev RegNum := Fin 32

/-- The 16-bit displacement field `D` of the D form (R36, R39). -/
abbrev Disp := BitVec 16

end Sys2Proof
end

