-- ==== Sys2Proof/Syntax.lean ====
section
/-! DEFINITION. The instructions as syntax, one constructor per row of spec/opcode_table.json. -/

namespace Sys2Proof

/-- The "Load Byte and Zero" family (R1). `rt` is the field RT that the syntax calls `RD`
(spec/90_conflicts.md C2), `ra` the base field, `rb` the index field, `d` the displacement. -/
inductive Instr where
  /-- `lbz RD, d(RA0)`: Load Byte and Zero (R53). -/
  | lbz (rt ra : RegNum) (d : Disp)
  /-- `lbzu RD, d(RA)`: Load Byte and Zero with Update (R54). -/
  | lbzu (rt ra : RegNum) (d : Disp)
  /-- `lbzux RD, RA, RB`: Load Byte and Zero with Update Indexed (R55). -/
  | lbzux (rt ra rb : RegNum)
  /-- `lbzx RD, RA0, RB`: Load Byte and Zero Indexed (R56). -/
  | lbzx (rt ra rb : RegNum)
  deriving DecidableEq, Repr

end Sys2Proof
end

