-- ==== Sys2Proof/Decode.lean ====
section
/-! DEFINITION. Decoding of instruction words and bytes (spec/30_encoding.md R35 to R45), and after it the
encoder, written from the same field tables. A field the spec gives as IBM bits a to b is the LSB-0
slice 31-b to 31-a (R5). -/

namespace Sys2Proof

/-! ## Fields (R36, R37, R38) -/

/-- `OPCD`, bits 0 to 5. -/
def opcdField (w : InstrWord) : BitVec 6 := w.extractLsb' 26 6

/-- `RT`, bits 6 to 10. -/
def rtField (w : InstrWord) : RegNum := (w.extractLsb' 21 5).toFin

/-- `RA`, bits 11 to 15. -/
def raField (w : InstrWord) : RegNum := (w.extractLsb' 16 5).toFin

/-- `RB`, bits 16 to 20 of the X form. -/
def rbField (w : InstrWord) : RegNum := (w.extractLsb' 11 5).toFin

/-- `XO`, bits 21 to 30 of the X form. -/
def xoField (w : InstrWord) : BitVec 10 := w.extractLsb' 1 10

/-- `Rc`, bit 31 of the X form. -/
def rcField (w : InstrWord) : BitVec 1 := w.extractLsb' 0 1

/-- `D`, bits 16 to 31 of the D form. -/
def dField (w : InstrWord) : Disp := w.extractLsb' 0 16

/-! ## Decoding -/

/-- What a word or a string of bytes decodes to; every case but `instr` rejects, by name. -/
inductive Decoded where
  /-- One of the four instructions, possibly an invalid form (R42, R44). -/
  | instr (i : Instr)
  /-- Primary opcode 31, extended opcode 87 or 119, bit 31 = 1 (R43). -/
  | reservedEncoding
  /-- None of the four patterns and not reserved (R45). -/
  | outOfScope
  /-- Fewer than four bytes: no whole word is there. A 32-bit word never decodes to this. -/
  | truncated
  deriving DecidableEq, Repr

/-- The words of primary opcode 31 (R37, R42, R43). -/
def decodeX (w : InstrWord) : Decoded :=
  if xoField w = 119#10 then
    if rcField w = 0#1 then .instr (.lbzux (rtField w) (raField w) (rbField w)) else .reservedEncoding
  else if xoField w = 87#10 then
    if rcField w = 0#1 then .instr (.lbzx (rtField w) (raField w) (rbField w)) else .reservedEncoding
  else .outOfScope

/-- R42: the instruction a 32-bit word is, total on every word. -/
def decode (w : InstrWord) : Decoded :=
  if opcdField w = 34#6 then .instr (.lbz (rtField w) (raField w) (dField w))
  else if opcdField w = 35#6 then .instr (.lbzu (rtField w) (raField w) (dField w))
  else if opcdField w = 31#6 then decodeX w
  else .outOfScope

/-- R25: the byte at the lowest address holds instruction bits 0 to 7 (big-endian, D1). -/
def wordOfBytes (b0 b1 b2 b3 : Byte) : InstrWord := b0 ++ b1 ++ b2 ++ b3

/-- The four bytes of a word, the lowest address first (R25). -/
def bytesOfWord (w : InstrWord) : List Byte :=
  [w.extractLsb' 24 8, w.extractLsb' 16 8, w.extractLsb' 8 8, w.extractLsb' 0 8]

/-- Decoding from the bytes as they lie in memory, total on every list of bytes. -/
def decodeBytes : List Byte → Decoded
  | b0 :: b1 :: b2 :: b3 :: _ => decode (wordOfBytes b0 b1 b2 b3)
  | _ => .truncated

/-! ## Encoding (R36, R37, R38, R41) -/

/-- A register number as a 5-bit field. -/
def regBits (r : RegNum) : BitVec 5 := BitVec.ofFin r

/-- A D-form word: OPCD, RT, RA, D. -/
def encodeD (opcd : BitVec 6) (rt ra : RegNum) (d : Disp) : InstrWord :=
  opcd ++ regBits rt ++ regBits ra ++ d

/-- An X-form word of primary opcode 31: OPCD, RT, RA, RB, XO, Rc. -/
def encodeX (xo : BitVec 10) (rc : BitVec 1) (rt ra rb : RegNum) : InstrWord :=
  31#6 ++ regBits rt ++ regBits ra ++ regBits rb ++ xo ++ rc

/-- The word of an instruction (R41); bit 31 of the X form is 0 (R43). -/
def encode : Instr → InstrWord
  | .lbz rt ra d => encodeD 34#6 rt ra d
  | .lbzu rt ra d => encodeD 35#6 rt ra d
  | .lbzux rt ra rb => encodeX 119#10 0#1 rt ra rb
  | .lbzx rt ra rb => encodeX 87#10 0#1 rt ra rb

/-! ## The host's reading of a table row -/

/-- The instruction word whose low `nbits` bits are those of `w`, every bit above being 0. Bit 0 of the
opcode table is the least significant bit of the one word an instruction has (R35). -/
def tableWord (nbits w : Nat) : InstrWord := BitVec.ofNat 32 (w % 2 ^ nbits)

/-- What the decoder reads from that word laid out in memory. -/
def decodeTableWord (nbits w : Nat) : Option Instr :=
  match decodeBytes (bytesOfWord (tableWord nbits w)) with
  | .instr i => some i
  | .reservedEncoding => none
  | .outOfScope => none
  | .truncated => none

end Sys2Proof
end

