-- ==== Sys2Proof/Config.lean ====
section
/-! DEFINITION. What is fixed for the machine, and its one free value.
The spec's launch parameters that a run must be able to choose (Mapped, Plain, Shared, text,
invalid_form_policy) are plain data of State, not constants here (log entry 9). -/

namespace Sys2Proof

/-- FREE VALUE (log entry 8, DESIGN CHOICE): the byte that the `n`-th read of an address declared
`Shared` returns. D15 of spec/92_eei_decisions.md: at those addresses `MemRead` "is an oracle that may
return any byte (a draw)". It has no body, so nothing can be proved of the byte. -/
opaque Config.sharedByte : Nat → Byte

/-- `entry_pc`, the launch value of `pc`, is OPEN in the spec (R4, R19, R70).
DESIGN CHOICE (log entry 2, unsafe): 0. -/
def Config.entryPc : Addr := 0#32

/-- The spec gives no register a reset value (R19).
DESIGN CHOICE (log entry 1, unsafe): 0. -/
def Config.resetGpr : Word := 0#64

end Sys2Proof
end

