-- ==== Sys2Proof/Machine/State.lean ====
section
/-! DEFINITION. The machine's state as plain data, its faults and refusals, and the state after reset
(spec/10_state.md, spec/20_memory.md, spec/60_exceptions.md R61, spec/70_reset_and_hazards.md). -/

namespace Sys2Proof.Machine

/-- The contents of a register or register file whose count, widths and layout the spec does not give
(R15, R17; U10: "opaque; unchanged by every rule"). `code` is a name for the contents: two contents
are the same exactly when their codes are; no bit of it means anything (log entry 3). -/
structure Contents where
  code : Nat
  deriving DecidableEq, Repr

/-- XER, which the spec names through its fields CA, OV and SO, widths not given (R15); `rest` is
whatever else the register holds. -/
structure Xer where
  ca : Contents
  ov : Contents
  so : Contents
  rest : Contents
  deriving DecidableEq, Repr

/-- The parameter `invalid_form_policy` (R4, R44, D7). -/
inductive InvalidFormPolicy where
  /-- An invalid form is refused (the spec's default). -/
  | refuse
  /-- An invalid form runs by its instruction's ordinary rule (R57). -/
  | snapshot
  deriving DecidableEq, Repr

/-- Bytes of the one shared space (R20) as (address, byte) pairs. An address that is not listed holds no
byte: reading it faults (R22; log entry 4). Canonical form: `Memory.wf` in Machine/Ops.lean. -/
abbrev Memory := List Host.Cell

/-- A set of addresses, listed in strictly rising order (`AddrSet.wf` in Machine/Ops.lean). -/
abbrev AddrSet := List Nat

/-- Everything the spec gives the machine. The fields from `text` on are the spec's launch parameters
(R4), which no step writes, and the model's own draw counter. -/
structure State where
  /-- r0 to r31 (R10, R11). -/
  gpr : Vector Word 32
  /-- The program counter: the address of the instruction that executes (R13, R14). -/
  pc : Addr
  /-- The condition register, opaque (R15). -/
  cr : Contents
  /-- The fixed-point exception register, opaque (R15). -/
  xer : Xer
  /-- The floating-point registers, opaque (R17). -/
  fpr : Contents
  /-- The vector registers, opaque (R17). -/
  vr : Contents
  /-- The bytes that exist, program text and data alike (R20, R22, R71). -/
  mem : Memory
  /-- The 4-aligned addresses of the words that are program text (R25, R71). -/
  text : AddrSet
  /-- Addresses that hold a byte but that a load may not read: with the unlisted addresses, those
  where `Mapped` is false (R22, R66). -/
  unmapped : AddrSet
  /-- The addresses where `Plain` is false (R29). -/
  nonPlain : AddrSet
  /-- The addresses where `Shared` is true (R4, R32). -/
  shared : AddrSet
  /-- `invalid_form_policy` (R44). -/
  policy : InvalidFormPolicy
  /-- The MODEL's own field (log entry 8): how many draws reads of shared addresses have made. -/
  draws : Nat
  deriving DecidableEq, Repr

/-- The faults of R61. Each is terminal, raised before anything is written: the state is the one before
the instruction (R62). All three are SAFE: the machine stops where the hardware may go on. -/
inductive Fault where
  /-- Raised by `step`: `pc` is not a multiple of 4, or one of the four bytes at `pc` is not in the
  program text (R14, R25). Safe. -/
  | fetchFault (pc : Addr)
  /-- Raised by a load: its effective address is not mapped (R22). Safe. -/
  | dataAccessFault (ea : Addr)
  /-- Raised by a load at `pc` = 0xFFFFFFFC that would otherwise complete (R14). Safe. -/
  | pcOverflow
  deriving DecidableEq, Repr

/-- The refusals of R61, each leaving the state before the instruction, and the name for an instruction
without a meaning, which no arm uses. All are SAFE: the machine stops where the hardware may go on. -/
inductive Refusal where
  /-- Raised by an arm of `exec` that has no meaning yet; none is left. Safe. -/
  | notModelled (mnemonic : String)
  /-- Raised by `lbzu` and `lbzux` with RA = 0 or RA = RT under policy `refuse` (R44). Safe. -/
  | invalidForm (w : InstrWord)
  /-- Raised by `step`: primary opcode 31, extended opcode 87 or 119, bit 31 = 1 (R43). Safe. -/
  | reservedEncoding (w : InstrWord)
  /-- Raised by `step`: a word that is none of the four instructions (R45). Safe. -/
  | outOfScope (w : InstrWord)
  /-- Raised by a load: its effective address is mapped and not plain (R29). Safe. -/
  | nonPlainRead (ea : Addr)
  deriving DecidableEq, Repr

/-- The three outcomes of a step (R8). -/
abbrev StepOutcome := Host.Outcome State Fault Refusal

/-- The state after reset. The spec describes no reset and leaves the launch state open (R19, R70), so
registers, pc and memory have the values log entries 1 to 6 name; `nonPlain`, `shared` and `policy` have
the spec's defaults (R4). -/
def State.reset : State where
  gpr := Vector.replicate 32 Config.resetGpr
  pc := Config.entryPc
  cr := ⟨0⟩
  xer := ⟨⟨0⟩, ⟨0⟩, ⟨0⟩, ⟨0⟩⟩
  fpr := ⟨0⟩
  vr := ⟨0⟩
  mem := []
  text := []
  unmapped := []
  nonPlain := []
  shared := []
  policy := .refuse
  draws := 0

end Sys2Proof.Machine
end

