-- ==== Sys2Proof/Machine/Ops.lean ====
section
/-! DEFINITION. The named operations over memory, address sets and registers, instruction fetch, the read
primitive, and the two ways a step stops (spec/20_memory.md R22, R25, R29, R32; spec/60_exceptions.md
R61, R62). -/

namespace Sys2Proof.Machine

/-! ## Memory as data -/

/-- The canonical form: addresses strictly rise and lie in the 32-bit space (R20). An unlisted address holds no
byte, so no entry can equal what it reads as, and a write never removes one (log entry 4). -/
abbrev Memory.wf (m : Memory) : Prop :=
  m.Pairwise (fun c c' => c.1 < c'.1) ∧ ∀ c ∈ m, c.1 < 2 ^ 32

/-- The byte at an address; `none` where no byte is listed. -/
def Memory.read : Memory → Nat → Option Byte
  | [], _ => none
  | c :: m, a => if a = c.1 then some c.2 else Memory.read m a

/-- Put a byte at an address, keeping the list in rising order. No instruction of the family writes memory
(R27); a launch does (R71). -/
def Memory.write : Memory → Nat → Byte → Memory
  | [], a, b => [(a, b)]
  | c :: m, a, b =>
    if a < c.1 then (a, b) :: c :: m
    else if a = c.1 then (a, b) :: m
    else c :: Memory.write m a b

/-! ## Sets of addresses -/

/-- The canonical form of a set: strictly rising, inside the 32-bit space. -/
abbrev AddrSet.wf (t : AddrSet) : Prop := t.Pairwise (· < ·) ∧ ∀ a ∈ t, a < 2 ^ 32

/-- Is the address in the set? -/
def AddrSet.has : AddrSet → Nat → Bool
  | [], _ => false
  | k :: t, a => a == k || AddrSet.has t a

/-- Add an address, keeping the list in rising order. -/
def AddrSet.insert : AddrSet → Nat → AddrSet
  | [], a => [a]
  | k :: t, a => if a < k then a :: k :: t else if a = k then k :: t else k :: AddrSet.insert t a

/-! ## How a step stops -/

/-- `raise` of R6 and R61: the step ends in the fault. Trap entry is not modelled (R62, D12): nothing is
saved, no mode changes, control goes nowhere, and the state before the instruction is kept. -/
def raise (f : Fault) : StepOutcome := .fault f

/-- `refuse` of R6 and R61: the spec gives the word or the situation no meaning; nothing is changed. -/
def refuse (r : Refusal) : StepOutcome := .refused r

/-! ## Registers and the program counter -/

/-- `x[r]` of R6. No register is hard-wired (R11). -/
def State.reg (s : State) (r : RegNum) : Word := s.gpr.get r

/-- `x[r] <- v` of R6. -/
def State.setReg (s : State) (r : RegNum) (v : Word) : State := { s with gpr := s.gpr.set r v }

/-- The write-back of an update form: RA receives the zero-extended 32-bit address (R54, R55). The forms
without update name no register. -/
def State.writeBack (s : State) (upd : Option RegNum) (ea : Addr) : State :=
  match upd with
  | none => s
  | some ra => s.setReg ra (ea.setWidth 64)

/-- The one address whose instruction cannot advance `pc` in 32 bits (R14). -/
def topPc : Addr := 0xFFFFFFFC#32

/-- `pc <- pc + 4` (R13). -/
def State.advancePc (s : State) : State := { s with pc := s.pc + 4#32 }

/-! ## Data access -/

/-- `Mapped` and `byte` of R22 in one: the byte a load may read at `a`, `none` where `a` is not mapped. -/
def State.mappedByte (s : State) (a : Addr) : Option Byte :=
  if s.unmapped.has a.toNat then none else s.mem.read a.toNat

/-- `Plain` of R29. -/
def State.isPlain (s : State) (a : Addr) : Bool := !s.nonPlain.has a.toNat

/-- `Shared` of R4 and R32: another agent may write the byte during the run. -/
def State.isShared (s : State) (a : Addr) : Bool := s.shared.has a.toNat

/-- What `MemRead(addr, 1)` answers: a byte with the state after the read, or why there is none. -/
inductive ByteRead where
  /-- The byte, and the state after the read. -/
  | byte (b : Byte) (s : State)
  /-- The address is not mapped (R22). -/
  | unmapped
  /-- The address is mapped and not plain (R29). -/
  | nonPlain
  deriving DecidableEq, Repr

/-- `MemRead(addr, 1)` (R22, R29, R32). A plain, unshared address gives its byte and changes nothing; a
shared address gives the next draw, a free value (D15, log entry 8). -/
def State.memRead (s : State) (a : Addr) : ByteRead :=
  match s.mappedByte a with
  | none => .unmapped
  | some b =>
    if s.isPlain a then
      if s.isShared a then .byte (Config.sharedByte s.draws) { s with draws := s.draws + 1 }
      else .byte b s
    else .nonPlain

/-! ## Instruction fetch -/

/-- Is the byte at `a` part of the program text? Text is made of whole 4-aligned words (R71). -/
def State.inText (s : State) (a : Addr) : Bool := s.text.has (a.toNat - a.toNat % 4)

/-- The program text's byte at `a`: `none` outside the text (R25). Fetch reads the text, not the data
oracle, and asks neither `Mapped` nor `Plain` nor `Shared` (D16). -/
def State.textByte (s : State) (a : Addr) : Option Byte :=
  if s.inText a then s.mem.read a.toNat else none

/-- The instruction word at `pc` (R14, R25): `none` where the fetch faults. -/
def State.fetch (s : State) : Option InstrWord :=
  if s.pc.toNat % 4 = 0 then
    match s.textByte s.pc, s.textByte (s.pc + 1#32), s.textByte (s.pc + 2#32), s.textByte (s.pc + 3#32) with
    | some b0, some b1, some b2, some b3 => some (wordOfBytes b0 b1 b2 b3)
    | _, _, _, _ => none
  else none

/-- Place a word of program text at the 4-aligned address `a`, big-endian (R25, R71). -/
def State.placeText (s : State) (a : Addr) (w : InstrWord) : State :=
  { s with
    mem := (((s.mem.write a.toNat (w.extractLsb' 24 8)).write (a + 1#32).toNat (w.extractLsb' 16 8)).write
      (a + 2#32).toNat (w.extractLsb' 8 8)).write (a + 3#32).toNat (w.extractLsb' 0 8)
    text := s.text.insert a.toNat }

end Sys2Proof.Machine
end

