-- ==== Sys2Proof/Machine/Operands.lean ====
section
/-! DEFINITION. The operand forms of the family and its one piece of arithmetic, the effective address
(spec/30_encoding.md R39, R40; spec/20_memory.md R21; spec/00_scope.md R7). -/

namespace Sys2Proof.Machine

/-- The operand kind `RA0` (R40): field 0 is the literal 64-bit zero, not r0. -/
def State.ra0val (s : State) (ra : RegNum) : Word := if ra = 0 then 0#64 else s.reg ra

/-- `sext_64(d)` (R39): the displacement sign-extended, neither scaled nor shifted. -/
def dispOffset (d : Disp) : Word := d.signExtend 64

/-- `trunc_32(base +_64 offset)` (R21): the sum wraps at 64 bits and its low 32 bits are the address. -/
def effectiveAddress (base offset : Word) : Addr := (base + offset).setWidth 32

/-- `zext_64` of the loaded byte (R51). -/
def zeroExtendByte (b : Byte) : Word := b.setWidth 64

/-- R44: RA = 0 or RA = RT is an invalid form of an update instruction. -/
def invalidUpdateForm (rt ra : RegNum) : Bool := ra == 0 || ra == rt

end Sys2Proof.Machine
end

