-- ==== Sys2Proof/Machine/LoadByte.lean ====
section
/-! DEFINITION. The meanings of `lbz`, `lbzu`, `lbzux` and `lbzx` (spec/40_load_byte_and_zero.md), each over the two
shared operations at the head of this file. -/

namespace Sys2Proof.Machine

/-- Steps 3 to 6 of R50, in the order of checks of R63 (4) to (7): read the byte at `ea`; write it
zero-extended to `rt`; for an update form then write `ea` to the register `upd`; advance `pc`. Every
fault and refusal comes before the first write. -/
def State.loadByteZero (s : State) (rt : RegNum) (upd : Option RegNum) (ea : Addr) : StepOutcome :=
  match s.memRead ea with
  | .unmapped => raise (.dataAccessFault ea)
  | .nonPlain => refuse (.nonPlainRead ea)
  | .byte b s' =>
    if s.pc = topPc then raise .pcOverflow
    else .next ((s'.setReg rt (zeroExtendByte b)).writeBack upd ea).advancePc

/-- R63 (3) and R44: under policy `refuse` an invalid update form is refused with its word; otherwise the
load goes on, by R57 also for an invalid form. -/
def State.loadByteUpdate (s : State) (w : InstrWord) (rt ra : RegNum) (ea : Addr) : StepOutcome :=
  if invalidUpdateForm rt ra = true ∧ s.policy = .refuse then refuse (.invalidForm w)
  else s.loadByteZero rt (some ra) ea

/-- `lbz RD, d(RA0)` (R53). -/
def execLbz (rt ra : RegNum) (d : Disp) (s : State) : StepOutcome :=
  s.loadByteZero rt none (effectiveAddress (s.ra0val ra) (dispOffset d))

/-- `lbzu RD, d(RA)` (R54, R57). -/
def execLbzu (rt ra : RegNum) (d : Disp) (s : State) : StepOutcome :=
  s.loadByteUpdate (encode (.lbzu rt ra d)) rt ra (effectiveAddress (s.reg ra) (dispOffset d))

/-- `lbzux RD, RA, RB` (R55, R57). -/
def execLbzux (rt ra rb : RegNum) (s : State) : StepOutcome :=
  s.loadByteUpdate (encode (.lbzux rt ra rb)) rt ra (effectiveAddress (s.reg ra) (s.reg rb))

/-- `lbzx RD, RA0, RB` (R56). -/
def execLbzx (rt ra rb : RegNum) (s : State) : StepOutcome :=
  s.loadByteZero rt none (effectiveAddress (s.ra0val ra) (s.reg rb))

end Sys2Proof.Machine
end

