-- ==== Sys2Proof/Machine/Dispatch.lean ====
section
/-! DEFINITION. `exec`: one arm per constructor of `Instr`, each one call of that instruction's meaning. -/

namespace Sys2Proof.Machine

def exec (i : Instr) (s : State) : Host.Outcome State Fault Refusal :=
  match i with
  | .lbz rt ra d => Sys2Proof.Machine.execLbz rt ra d s
  | .lbzu rt ra d => Sys2Proof.Machine.execLbzu rt ra d s
  | .lbzux rt ra rb => Sys2Proof.Machine.execLbzux rt ra rb s
  | .lbzx rt ra rb => Sys2Proof.Machine.execLbzx rt ra rb s

end Sys2Proof.Machine
end

