-- ==== Sys2Proof/Machine/Step.lean ====
section
/-! DEFINITION. One step of the machine: fetch, decode, execute (spec/60_exceptions.md R63), and how the host places
an instruction where the next step fetches it. -/

namespace Sys2Proof.Machine

/-- R63: (1) fetch, else `FetchFault`; (2) decode, else `ReservedEncoding` or `OutOfScope`; (3) to (7) are
the instruction's own. -/
def step (s : State) : Host.Outcome State Fault Refusal :=
  match s.fetch with
  | none => raise (.fetchFault s.pc)
  | some w =>
    match decode w with
    | .instr i => exec i s
    | .reservedEncoding => refuse (.reservedEncoding w)
    | .outOfScope => refuse (.outOfScope w)
    | .truncated => raise (.fetchFault s.pc)

/-- `s` with the table word placed as program text at `pc`, where `step` fetches (log entry 5: a program is
loaded from outside the machine, and this stands for that load). -/
def State.withFetchWord (s : State) (nbits w : Nat) : State := s.placeText s.pc (tableWord nbits w)

end Sys2Proof.Machine
end

