-- ==== Sys2Proof/Machine/Assembly.lean ====
section
/-! DEFINITION. The assembler lines of the family (spec/30_encoding.md R46, R47) as data: a mnemonic and its operands in
order. The spelling of numbers is left out (log entry 21): a displacement stands by its value. -/

namespace Sys2Proof.Machine

/-- A register operand: `rN`, or the bare digit `0` of an RA0 operand whose field is 0 (R46). -/
inductive AsmReg where
  /-- `r0` to `r31`. -/
  | r (n : RegNum)
  /-- The bare digit `0`: the literal zero base. -/
  | zero
  deriving DecidableEq, Repr

/-- One operand of a line. -/
inductive AsmOperand where
  /-- A register. -/
  | plain (a : AsmReg)
  /-- A displacement immediately followed by the base in parentheses: `d(base)`. -/
  | disp (d : Int) (base : AsmReg)
  deriving DecidableEq, Repr

/-- One line: the mnemonic, then the destination, then the other operands (R46). -/
structure AsmLine where
  mnemonic : String
  operands : List AsmOperand
  deriving DecidableEq, Repr

/-- How an RA0 operand is written. -/
def asmRa0 (ra : RegNum) : AsmReg := if ra = 0 then .zero else .r ra

/-- The line of an instruction (R46); each mnemonic has one spelling (R47). -/
def asmOf : Instr → AsmLine
  | .lbz rt ra d => ⟨"lbz", [.plain (.r rt), .disp d.toInt (asmRa0 ra)]⟩
  | .lbzu rt ra d => ⟨"lbzu", [.plain (.r rt), .disp d.toInt (.r ra)]⟩
  | .lbzux rt ra rb => ⟨"lbzux", [.plain (.r rt), .plain (.r ra), .plain (.r rb)]⟩
  | .lbzx rt ra rb => ⟨"lbzx", [.plain (.r rt), .plain (asmRa0 ra), .plain (.r rb)]⟩

/-- The field of an RA0 operand; `r0` is not a spelling of the literal zero (log entry 21). -/
def fieldOfRa0 : AsmReg → Option RegNum
  | .zero => some 0
  | .r n => if n = 0 then none else some n

/-- The 16-bit two's-complement field of a displacement, `none` outside -32768 to 32767 (R39, R46). -/
def fieldOfDisp (d : Int) : Option Disp :=
  if -32768 ≤ d ∧ d ≤ 32767 then some (BitVec.ofInt 16 d) else none

/-- The instruction a line assembles to, its operands mapped to fields as R46 says; `none` for a line that is
none of the four. -/
def assemble (l : AsmLine) : Option Instr :=
  match l.operands with
  | [.plain (.r rt), .disp d base] =>
    if l.mnemonic = "lbz" then
      match fieldOfRa0 base, fieldOfDisp d with
      | some ra, some d => some (.lbz rt ra d)
      | _, _ => none
    else if l.mnemonic = "lbzu" then
      match base, fieldOfDisp d with
      | .r ra, some d => some (.lbzu rt ra d)
      | _, _ => none
    else none
  | [.plain (.r rt), .plain base, .plain (.r rb)] =>
    if l.mnemonic = "lbzux" then
      match base with
      | .r ra => some (.lbzux rt ra rb)
      | .zero => none
    else if l.mnemonic = "lbzx" then
      match fieldOfRa0 base with
      | some ra => some (.lbzx rt ra rb)
      | none => none
    else none
  | _ => none

end Sys2Proof.Machine
end

