-- ==== Sys2Proof/Machine/Flags.lean ====
section
/-! DEFINITION. The family computes no flag: "No condition-register or status-register effects" (R15, R52),
and has no record form (R43, R47). What stands here is the status state it leaves alone, as one value. -/

namespace Sys2Proof.Machine

/-- The status registers and the register files that no rule of the spec touches (R15, R17, R52). -/
structure StatusState where
  cr : Contents
  xer : Xer
  fpr : Contents
  vr : Contents
  deriving DecidableEq, Repr

/-- The untouched part of a state. -/
def State.status (s : State) : StatusState := ⟨s.cr, s.xer, s.fpr, s.vr⟩

end Sys2Proof.Machine
end

