-- ==== Sys2Proof/WellFormed.lean ====
section
/-! DEFINITION. Which instructions are well formed: all but the architecture's invalid forms (R44).
Every field is in range by its type, so R44's two checks are the only ones. -/

namespace Sys2Proof

/-- R44: "Update forms `lbzu` / `lbzux` invoke `RA = 0` (and `RA = RT`) as invalid forms"; the
non-update instructions have no invalid form. -/
def Instr.wellFormed : Instr → Bool
  | .lbz _ _ _ => true
  | .lbzu rt ra _ => ra != 0 && ra != rt
  | .lbzux rt ra _ => ra != 0 && ra != rt
  | .lbzx _ _ _ => true

end Sys2Proof
end

