-- ==== Sys2Proof/Safety.lean ====
section
/-! DEFINITION. The terms claims are made in: what an instruction writes, what stays the same, the invariant of
every step, launch premises, and a run to `end_pc` (spec/10_state.md R12, R18; spec/70_reset_and_hazards.md
R71, R72). -/

namespace Sys2Proof.Machine

/-- R12, the column "writes (always)": the registers an instruction writes. -/
def writes : Instr → List RegNum
  | .lbz rt _ _ => [rt]
  | .lbzu rt ra _ => [rt, ra]
  | .lbzux rt ra _ => [rt, ra]
  | .lbzx rt _ _ => [rt]

/-- R12, the column "reads (always)": the registers an instruction reads. A read of RA0 with the field 0 reads
no register. -/
def reads : Instr → List RegNum
  | .lbz _ ra _ => if ra = 0 then [] else [ra]
  | .lbzu _ ra _ => [ra]
  | .lbzux _ ra rb => [ra, rb]
  | .lbzx _ ra rb => if ra = 0 then [rb] else [ra, rb]

/-- The destination register RT of an instruction. -/
def destReg : Instr → RegNum
  | .lbz rt _ _ => rt
  | .lbzu rt _ _ => rt
  | .lbzux rt _ _ => rt
  | .lbzx rt _ _ => rt

/-- The register an update form writes its address to. -/
def updateReg : Instr → Option RegNum
  | .lbz _ _ _ => none
  | .lbzu _ ra _ => some ra
  | .lbzux _ ra _ => some ra
  | .lbzx _ _ _ => none

/-- The effective address of an instruction in a state: the address its meaning reads (R53 to R56). -/
def loadAddress (i : Instr) (s : State) : Addr :=
  match i with
  | .lbz _ ra d => effectiveAddress (s.ra0val ra) (dispOffset d)
  | .lbzu _ ra d => effectiveAddress (s.reg ra) (dispOffset d)
  | .lbzux _ ra rb => effectiveAddress (s.reg ra) (s.reg rb)
  | .lbzx _ ra rb => effectiveAddress (s.ra0val ra) (s.reg rb)

/-- The forms that run in a state: every well-formed instruction, and under policy `snapshot` the
invalid forms too (R44, R57). -/
def formAllowed (i : Instr) (s : State) : Prop := i.wellFormed = true ∨ s.policy = .snapshot

/-- Two states answer an instruction alike: the same fault, the same refusal, or next states that agree on
every register the instruction writes and on `pc`. -/
def answersAlike (i : Instr) (s s' : State) : Prop :=
  (∀ f, exec i s = .fault f ↔ exec i s' = .fault f) ∧
    (∀ q, exec i s = .refused q ↔ exec i s' = .refused q) ∧
    ∀ t, exec i s = .next t →
      ∃ t', exec i s' = .next t' ∧ (∀ r ∈ writes i, t'.reg r = t.reg r) ∧ t'.pc = t.pc

/-- The launch parameters of R4, which are fixed for a run. -/
def State.sameParameters (s t : State) : Prop :=
  t.text = s.text ∧ t.unmapped = s.unmapped ∧ t.nonPlain = s.nonPlain ∧ t.shared = s.shared ∧
    t.policy = s.policy

/-- R18: everything but `pc`, the listed registers and the model's draw counter is the same after as
before: every other register, the status state, every byte of memory, every launch parameter. -/
def State.unchangedExcept (s t : State) (rs : List RegNum) : Prop :=
  (∀ r, r ∉ rs → t.reg r = s.reg r) ∧ t.status = s.status ∧
    (∀ a, t.mem.read a = s.mem.read a) ∧ t.mem = s.mem ∧ s.sameParameters t

/-- The invariant of every step: memory and the sets in canonical form, text made of whole words that
hold bytes, and `pc` a multiple of 4 (R14, R20, R71). -/
structure State.Inv (s : State) : Prop where
  mem_wf : s.mem.wf
  text_wf : s.text.wf
  unmapped_wf : s.unmapped.wf
  nonPlain_wf : s.nonPlain.wf
  shared_wf : s.shared.wf
  text_aligned : ∀ a ∈ s.text, a % 4 = 0
  text_present : ∀ a ∈ s.text, ∀ k < 4, (s.mem.read (a + k)).isSome = true
  pc_aligned : s.pc.toNat % 4 = 0

/-- The launch premises of R71 that are about the state: the invariant, and `entry_pc` aligned and in the
program text. Its third premise, that mapped text bytes agree with the text, holds of every state,
since one list of bytes is read both ways. -/
def State.launchOk (s : State) (entry : Addr) : Prop :=
  s.Inv ∧ s.pc = entry ∧ entry.toNat ∈ s.text

/-- How a run ends. An abnormal end keeps the state before the instruction that did not complete (R61,
R62). -/
inductive RunEnd where
  /-- The run reached `end_pc`: its one successful end (R72). -/
  | ended (s : State)
  /-- A step faulted. -/
  | faulted (f : Fault) (s : State)
  /-- A step was refused. -/
  | refused (r : Refusal) (s : State)
  /-- The allowed number of steps was made and `end_pc` not reached. -/
  | unfinished (s : State)

/-- A run of at most `n` steps to `end_pc`, which is tested before each fetch (R72, D10; log entry 10). It says
where the model stops observing, not that the hardware stops. -/
def run (endPc : Addr) : Nat → State → RunEnd
  | 0, s => if s.pc = endPc then .ended s else .unfinished s
  | n + 1, s =>
    if s.pc = endPc then .ended s
    else match step s with
      | .next t => run endPc n t
      | .fault f => .faulted f s
      | .refused r => .refused r s

end Sys2Proof.Machine
end

