-- ==== Sys2Proof/Certificates/Slice0/Obligations.lean ====
section
/-! DEFINITION. The statements about the model, each a proposition for the provers. A docstring names the rule of spec/
that its statement formalises, or the section a derived one rests on. Addresses are written out from the
registers and fields, not through the model's operand functions, wherever the rule gives the formula. -/

open Sys2Proof Sys2Proof.Machine

/-! ## Encoding and decoding -/

/-- Words of spec/95_test_vectors.md section 2 decode as the table there says (E1, E2, E4, E5, E6, E9, E11,
E12, E14, E15, E17, E19). -/
def Obligations.SampleWordsDecode : Prop :=
  decode 0x88000000#32 = .instr (.lbz 0 0 0x0000#16) ∧
  decode 0x8BFFFFFF#32 = .instr (.lbz 31 31 0xFFFF#16) ∧
  decode 0x8FFFFFFF#32 = .instr (.lbzu 31 31 0xFFFF#16) ∧
  decode 0x8FFE8000#32 = .instr (.lbzu 31 30 0x8000#16) ∧
  decode 0x7C0000AE#32 = .instr (.lbzx 0 0 0) ∧
  decode 0x7FFEE8EE#32 = .instr (.lbzux 31 30 29) ∧
  decode 0x7C0000AF#32 = .reservedEncoding ∧
  decode 0x7C0000EF#32 = .reservedEncoding ∧
  decode 0x7C00012E#32 = .outOfScope ∧
  decode 0x84000000#32 = .outOfScope ∧
  decode 0x60000000#32 = .outOfScope ∧
  decode 0x88640004#32 = .instr (.lbz 3 4 0x0004#16)

/-- Every instruction, at every value of every field, is what its word and its bytes in memory decode to
(spec/30_encoding.md sections 1 and 3). -/
def Obligations.DecodeOfEncodeIsTheInstruction : Prop :=
  ∀ i : Instr, decode (encode i) = .instr i ∧ decodeBytes (bytesOfWord (encode i)) = .instr i

/-- No bit of an instruction's word is dropped: the word that decoded to an instruction is that
instruction's own word (spec/30_encoding.md sections 1 and 3). -/
def Obligations.EncodeOfDecodeIsTheWord : Prop :=
  ∀ (w : InstrWord) (i : Instr), decode w = .instr i → encode i = w

/-- R38: fields by shift and mask, words by shift and or, and the four opcode words. -/
def Obligations.FieldsAreShiftsAndMasks : Prop :=
  (∀ w : InstrWord,
    (opcdField w).toNat = (w.toNat >>> 26) &&& 0x3F ∧
    (rtField w).val = (w.toNat >>> 21) &&& 0x1F ∧
    (raField w).val = (w.toNat >>> 16) &&& 0x1F ∧
    (rbField w).val = (w.toNat >>> 11) &&& 0x1F ∧
    (xoField w).toNat = (w.toNat >>> 1) &&& 0x3FF ∧
    (rcField w).toNat = w.toNat &&& 1 ∧
    (dField w).toNat = w.toNat &&& 0xFFFF) ∧
  (∀ (o : BitVec 6) (rt ra : RegNum) (d : Disp), (encodeD o rt ra d).toNat =
    (o.toNat <<< 26) ||| (rt.val <<< 21) ||| (ra.val <<< 16) ||| (d.toNat &&& 0xFFFF)) ∧
  (∀ (xo : BitVec 10) (rc : BitVec 1) (rt ra rb : RegNum), (encodeX xo rc rt ra rb).toNat =
    (31 <<< 26) ||| (rt.val <<< 21) ||| (ra.val <<< 16) ||| (rb.val <<< 11) ||| (xo.toNat <<< 1) ||| rc.toNat) ∧
  encode (.lbz 0 0 0#16) = 0x88000000#32 ∧ encode (.lbzu 0 0 0#16) = 0x8C000000#32 ∧
  encode (.lbzux 0 0 0) = 0x7C0000EE#32 ∧ encode (.lbzx 0 0 0) = 0x7C0000AE#32

/-- R42: a word is an instruction when it matches that instruction's mask and match; a word that matches
none is no instruction; an invalid form among the update instructions is then refused under policy
`refuse` (R44). -/
def Obligations.DecodingFollowsTheMaskTable : Prop :=
  (∀ w : InstrWord,
    (w &&& 0xFC000000#32 = 0x88000000#32 → decode w = .instr (.lbz (rtField w) (raField w) (dField w))) ∧
    (w &&& 0xFC000000#32 = 0x8C000000#32 → decode w = .instr (.lbzu (rtField w) (raField w) (dField w))) ∧
    (w &&& 0xFC0007FF#32 = 0x7C0000EE#32 → decode w = .instr (.lbzux (rtField w) (raField w) (rbField w))) ∧
    (w &&& 0xFC0007FF#32 = 0x7C0000AE#32 → decode w = .instr (.lbzx (rtField w) (raField w) (rbField w))) ∧
    (w &&& 0xFC000000#32 ≠ 0x88000000#32 → w &&& 0xFC000000#32 ≠ 0x8C000000#32 →
      w &&& 0xFC0007FF#32 ≠ 0x7C0000EE#32 → w &&& 0xFC0007FF#32 ≠ 0x7C0000AE#32 →
      decode w = .reservedEncoding ∨ decode w = .outOfScope)) ∧
  (∀ (w : InstrWord) (s : State) (i : Instr), decode w = .instr i →
    (w &&& 0xFC000000#32 = 0x8C000000#32 ∨ w &&& 0xFC0007FF#32 = 0x7C0000EE#32) →
    (raField w = 0 ∨ raField w = rtField w) → s.policy = .refuse →
    exec i s = .refused (.invalidForm w))

/-- R43: an X-form word of the family with bit 31 = 1 is not the load; its step is refused. -/
def Obligations.RecordBitWordsAreReserved : Prop :=
  ∀ w : InstrWord, w.toNat >>> 26 = 31 →
    ((w.toNat >>> 1) &&& 0x3FF = 87 ∨ (w.toNat >>> 1) &&& 0x3FF = 119) → w.toNat &&& 1 = 1 →
    decode w = .reservedEncoding ∧
    ∀ s : State, s.fetch = some w → step s = .refused (.reservedEncoding w)

/-- R45: a word that matches none of the four patterns is refused, as reserved where R43 says so and as out
of scope elsewhere, never a fault and never an instruction; the decoder is total. -/
def Obligations.UnmatchedWordsAreRefused : Prop :=
  (∀ (w : InstrWord) (s : State), s.fetch = some w →
    w &&& 0xFC000000#32 ≠ 0x88000000#32 → w &&& 0xFC000000#32 ≠ 0x8C000000#32 →
    w &&& 0xFC0007FF#32 ≠ 0x7C0000EE#32 → w &&& 0xFC0007FF#32 ≠ 0x7C0000AE#32 →
    if w &&& 0xFC0007FF#32 = 0x7C0000EF#32 ∨ w &&& 0xFC0007FF#32 = 0x7C0000AF#32
    then step s = .refused (.reservedEncoding w)
    else step s = .refused (.outOfScope w)) ∧
  (∀ w : InstrWord, (∃ i, decode w = .instr i) ∨ decode w = .reservedEncoding ∨ decode w = .outOfScope)

/-- Lines and instructions match one to one: an instruction's line assembles to it, and a line that assembles is
the one line of its instruction (spec/30_encoding.md section 5; that `r0` does not spell the literal zero
is the model's choice, log entry 21). -/
def Obligations.AssemblyLinesAndInstructionsMatch : Prop :=
  (∀ i : Instr, assemble (asmOf i) = some i) ∧
  (∀ (l : AsmLine) (i : Instr), assemble l = some i → asmOf i = l)

/-! ## Fetch and step -/

/-- R25: the instruction at `pc` is the four text bytes from `pc` up, the first the most significant; without
them, or with `pc` misaligned, the step is a fetch fault; and `lbz` of address `pc` returns bits 0 to 7
of the instruction there. -/
def Obligations.FetchIsBigEndianFromText : Prop :=
  (∀ (s : State) (b0 b1 b2 b3 : Byte), s.pc.toNat % 4 = 0 →
    s.textByte s.pc = some b0 → s.textByte (s.pc + 1#32) = some b1 →
    s.textByte (s.pc + 2#32) = some b2 → s.textByte (s.pc + 3#32) = some b3 →
    s.fetch = some (b0 ++ b1 ++ b2 ++ b3)) ∧
  (∀ s : State, (s.pc.toNat % 4 ≠ 0 ∨ ∃ k < 4, s.textByte (s.pc + BitVec.ofNat 32 k) = none) →
    step s = .fault (.fetchFault s.pc)) ∧
  (∀ (s t : State) (w : InstrWord) (rt ra : RegNum) (d : Disp), s.fetch = some w →
    loadAddress (.lbz rt ra d) s = s.pc → s.isShared s.pc = false →
    exec (.lbz rt ra d) s = .next t → t.reg rt = (w.extractLsb' 24 8).setWidth 64)

/-- A step runs the instruction that the bytes at `pc` decode to, and adds nothing around it: `exec` itself
advances `pc` (spec/60_exceptions.md section 2, spec/20_memory.md section 2). -/
def Obligations.StepRunsTheDecodedInstruction : Prop :=
  ∀ (s : State) (b0 b1 b2 b3 : Byte) (i : Instr), s.pc.toNat % 4 = 0 →
    s.textByte s.pc = some b0 → s.textByte (s.pc + 1#32) = some b1 →
    s.textByte (s.pc + 2#32) = some b2 → s.textByte (s.pc + 3#32) = some b3 →
    decodeBytes [b0, b1, b2, b3] = .instr i → step s = exec i s

/-- A table word placed at an aligned `pc` is what the next step runs, whatever the memory and text were
(the model's own loading of a program, log entry 5; spec/70_reset_and_hazards.md section 2). -/
def Obligations.PlacedWordIsTheNextInstruction : Prop :=
  ∀ (s : State) (nbits w : Nat) (i : Instr), s.pc.toNat % 4 = 0 → decodeTableWord nbits w = some i →
    step (s.withFetchWord nbits w) = exec i (s.withFetchWord nbits w)

/-- R63: the one outcome of a step is the first of the rule's checks that applies. -/
def Obligations.StepOutcomeIsTheFirstCheckThatApplies : Prop :=
  ∀ s : State,
    (s.fetch = none → step s = .fault (.fetchFault s.pc)) ∧
    ∀ w : InstrWord, s.fetch = some w →
      (decode w = .reservedEncoding → step s = .refused (.reservedEncoding w)) ∧
      (decode w = .outOfScope → step s = .refused (.outOfScope w)) ∧
      ∀ i : Instr, decode w = .instr i →
        if i.wellFormed = false ∧ s.policy = .refuse then step s = .refused (.invalidForm w)
        else if s.mappedByte (loadAddress i s) = none then
          step s = .fault (.dataAccessFault (loadAddress i s))
        else if s.isPlain (loadAddress i s) = false then step s = .refused (.nonPlainRead (loadAddress i s))
        else if s.pc = 0xFFFFFFFC#32 then step s = .fault .pcOverflow
        else ∃ t, step s = .next t ∧ t.pc = s.pc + 4#32

/-- R14: fetch only at a multiple of 4; and the instruction at 0xFFFFFFFC, which would otherwise complete,
raises `PcOverflow` instead of writing `pc`. -/
def Obligations.ProgramCounterIsAlignedAndNeverWraps : Prop :=
  (∀ s : State, s.pc.toNat % 4 ≠ 0 → step s = .fault (.fetchFault s.pc)) ∧
  (∀ (s : State) (w : InstrWord) (i : Instr) (b : Byte), s.fetch = some w → decode w = .instr i →
    formAllowed i s → s.mappedByte (loadAddress i s) = some b → s.isPlain (loadAddress i s) = true →
    s.pc = 0xFFFFFFFC#32 → step s = .fault .pcOverflow) ∧
  (∀ s t : State, step s = .next t → t.pc.toNat = s.pc.toNat + 4)

/-! ## What each instruction does -/

/-- R53: `lbz`. Completes where the byte is mapped, plain and unshared and `pc` is not 0xFFFFFFFC; the shared
case is `SharedAddressesGiveDraws`. -/
def Obligations.LbzLoadsTheByteZeroExtended : Prop :=
  ∀ (rt ra : RegNum) (d : Disp),
    decode (34#6 ++ (BitVec.ofFin rt : BitVec 5) ++ (BitVec.ofFin ra : BitVec 5) ++ d) = .instr (.lbz rt ra d) ∧
    ∀ (s : State) (ea : Addr),
      ea = ((if ra = 0 then 0#64 else s.reg ra) + d.signExtend 64).setWidth 32 →
      (∀ b : Byte, s.mappedByte ea = some b → s.isPlain ea = true → s.isShared ea = false →
        s.pc ≠ 0xFFFFFFFC#32 →
        ∃ t, exec (.lbz rt ra d) s = .next t ∧ t.reg rt = b.setWidth 64 ∧ t.pc = s.pc + 4#32 ∧
          t.draws = s.draws ∧ s.unchangedExcept t [rt]) ∧
      (s.mappedByte ea = none → exec (.lbz rt ra d) s = .fault (.dataAccessFault ea))

/-- R54: `lbzu`, its valid forms (RA neither 0 nor RT), under either policy; the invalid forms are
`InvalidFormsFollowThePolicy`. -/
def Obligations.LbzuLoadsTheByteAndUpdatesTheBase : Prop :=
  ∀ (rt ra : RegNum) (d : Disp),
    decode (35#6 ++ (BitVec.ofFin rt : BitVec 5) ++ (BitVec.ofFin ra : BitVec 5) ++ d) = .instr (.lbzu rt ra d) ∧
    ∀ (s : State) (ea : Addr), ra ≠ 0 → ra ≠ rt → ea = (s.reg ra + d.signExtend 64).setWidth 32 →
      (∀ b : Byte, s.mappedByte ea = some b → s.isPlain ea = true → s.isShared ea = false →
        s.pc ≠ 0xFFFFFFFC#32 →
        ∃ t, exec (.lbzu rt ra d) s = .next t ∧ t.reg rt = b.setWidth 64 ∧ t.reg ra = ea.setWidth 64 ∧
          t.pc = s.pc + 4#32 ∧ t.draws = s.draws ∧ s.unchangedExcept t [rt, ra]) ∧
      (s.mappedByte ea = none → exec (.lbzu rt ra d) s = .fault (.dataAccessFault ea))

/-- R55: `lbzux`, its valid forms, under either policy; RT = RB and RA = RB are among them. -/
def Obligations.LbzuxLoadsTheByteAndUpdatesTheBase : Prop :=
  ∀ rt ra rb : RegNum,
    decode (31#6 ++ (BitVec.ofFin rt : BitVec 5) ++ (BitVec.ofFin ra : BitVec 5) ++ (BitVec.ofFin rb : BitVec 5) ++ 119#10 ++ 0#1) =
      .instr (.lbzux rt ra rb) ∧
    ∀ (s : State) (ea : Addr), ra ≠ 0 → ra ≠ rt → ea = (s.reg ra + s.reg rb).setWidth 32 →
      (∀ b : Byte, s.mappedByte ea = some b → s.isPlain ea = true → s.isShared ea = false →
        s.pc ≠ 0xFFFFFFFC#32 →
        ∃ t, exec (.lbzux rt ra rb) s = .next t ∧ t.reg rt = b.setWidth 64 ∧ t.reg ra = ea.setWidth 64 ∧
          t.pc = s.pc + 4#32 ∧ t.draws = s.draws ∧ s.unchangedExcept t [rt, ra]) ∧
      (s.mappedByte ea = none → exec (.lbzux rt ra rb) s = .fault (.dataAccessFault ea))

/-- R56: `lbzx`. RA = 0 is the literal zero, RB = 0 the register r0. -/
def Obligations.LbzxLoadsTheByteZeroExtended : Prop :=
  ∀ rt ra rb : RegNum,
    decode (31#6 ++ (BitVec.ofFin rt : BitVec 5) ++ (BitVec.ofFin ra : BitVec 5) ++ (BitVec.ofFin rb : BitVec 5) ++ 87#10 ++ 0#1) =
      .instr (.lbzx rt ra rb) ∧
    ∀ (s : State) (ea : Addr),
      ea = ((if ra = 0 then 0#64 else s.reg ra) + s.reg rb).setWidth 32 →
      (∀ b : Byte, s.mappedByte ea = some b → s.isPlain ea = true → s.isShared ea = false →
        s.pc ≠ 0xFFFFFFFC#32 →
        ∃ t, exec (.lbzx rt ra rb) s = .next t ∧ t.reg rt = b.setWidth 64 ∧ t.pc = s.pc + 4#32 ∧
          t.draws = s.draws ∧ s.unchangedExcept t [rt]) ∧
      (s.mappedByte ea = none → exec (.lbzx rt ra rb) s = .fault (.dataAccessFault ea))

/-- R57: the update forms with RA = 0 or RA = RT. Under `refuse` their word is refused. Under `snapshot` the base is
the register (r0 too), both registers are written, byte first, so that with RA = RT the address stays and
the byte is lost; the read can still fault. -/
def Obligations.InvalidFormsFollowThePolicy : Prop :=
  ∀ (i : Instr) (rt ra : RegNum) (s : State) (ea : Addr), (ra = 0 ∨ ra = rt) →
    ((∃ d : Disp, i = .lbzu rt ra d ∧ ea = (s.reg ra + d.signExtend 64).setWidth 32) ∨
      (∃ rb : RegNum, i = .lbzux rt ra rb ∧ ea = (s.reg ra + s.reg rb).setWidth 32)) →
    (s.policy = .refuse → exec i s = .refused (.invalidForm (encode i))) ∧
    (s.policy = .snapshot →
      (∀ b : Byte, s.mappedByte ea = some b → s.isPlain ea = true → s.isShared ea = false →
        s.pc ≠ 0xFFFFFFFC#32 →
        ∃ t, exec i s = .next t ∧ t.reg ra = ea.setWidth 64 ∧ (rt ≠ ra → t.reg rt = b.setWidth 64) ∧
          t.pc = s.pc + 4#32 ∧ t.draws = s.draws ∧ s.unchangedExcept t [rt, ra]) ∧
      (s.mappedByte ea = none → exec i s = .fault (.dataAccessFault ea)))

/-- The alternative of D15 (spec/20_memory.md section 7, spec/92_eei_decisions.md D15): at an address declared shared the
load completes as its rule says, with a free byte in place of the loaded one. The free byte is the model's
(log entry 8), and nothing is said of its value. -/
def Obligations.SharedAddressesGiveDraws : Prop :=
  ∀ (i : Instr) (s : State), formAllowed i s → (s.mappedByte (loadAddress i s)).isSome = true →
    s.isPlain (loadAddress i s) = true → s.isShared (loadAddress i s) = true → s.pc ≠ 0xFFFFFFFC#32 →
    ∃ t, exec i s = .next t ∧
      (updateReg i ≠ some (destReg i) → t.reg (destReg i) = (Config.sharedByte s.draws).setWidth 64) ∧
      (∀ ra, updateReg i = some ra → t.reg ra = (loadAddress i s).setWidth 64) ∧
      t.pc = s.pc + 4#32 ∧ t.draws = s.draws + 1 ∧ s.unchangedExcept t (writes i)

/-- R29: a read of a plain address (no other agent writing it) returns its byte and changes nothing; a load
from a mapped address that is not plain is refused; by default every address is plain. -/
def Obligations.PlainReadsHaveNoEffectOthersAreRefused : Prop :=
  (∀ (s : State) (a : Addr) (b : Byte), s.mappedByte a = some b → s.isPlain a = true →
    s.isShared a = false → s.memRead a = .byte b s) ∧
  (∀ (i : Instr) (s : State) (b : Byte), formAllowed i s → s.mappedByte (loadAddress i s) = some b →
    s.isPlain (loadAddress i s) = false → exec i s = .refused (.nonPlainRead (loadAddress i s))) ∧
  (∀ a : Addr, State.reset.isPlain a = true)

/-- R26: no load faults for the alignment of its address: the only faults are an unmapped address and `pc`
at the top of the space. -/
def Obligations.ByteLoadsNeverFaultForAlignment : Prop :=
  ∀ (i : Instr) (s : State) (f : Fault), exec i s = .fault f →
    (f = .dataAccessFault (loadAddress i s) ∧ s.mappedByte (loadAddress i s) = none) ∨
    (f = .pcOverflow ∧ s.pc = 0xFFFFFFFC#32)

/-- R51: the destination of a load (where the address does not overwrite it) holds the byte in bits 7 to 0 and
zeros above, a value from 0 to 255. -/
def Obligations.LoadedRegisterIsTheByteBelowZeros : Prop :=
  ∀ (i : Instr) (s t : State), updateReg i ≠ some (destReg i) → exec i s = .next t →
    (t.reg (destReg i)).toNat ≤ 255 ∧ (t.reg (destReg i)).extractLsb' 8 56 = 0#56 ∧
    (s.isShared (loadAddress i s) = false →
      s.mappedByte (loadAddress i s) = some ((t.reg (destReg i)).setWidth 8))

/-- The register an update form writes back holds the 32-bit address that was read, its high half clear, in
every form that completes (spec/40_load_byte_and_zero.md sections 3, 4 and 6). -/
def Obligations.UpdatedBaseIsTheCleanAddress : Prop :=
  ∀ (i : Instr) (s t : State) (ra : RegNum), updateReg i = some ra → exec i s = .next t →
    (t.reg ra).toNat = (loadAddress i s).toNat ∧ (t.reg ra).extractLsb' 32 32 = 0#32 ∧
    (s.mappedByte (loadAddress i s)).isSome = true

/-- R12 and R18: a completed instruction writes the registers of R12's table and `pc`, and nothing else: other
registers, status state, every byte of memory and every launch parameter are as before. R12's reads:
changing registers outside the table's reads changes no answer. -/
def Obligations.OnlyTheTablesRegistersAreReadAndWritten : Prop :=
  (∀ (i : Instr) (s t : State), exec i s = .next t → t.pc = s.pc + 4#32 ∧ s.unchangedExcept t (writes i)) ∧
  (∀ (i : Instr) (s : State) (g : Vector Word 32), (∀ r ∈ reads i, g.get r = s.reg r) →
    answersAlike i s { s with gpr := g })

/-- R52: no status effect, no store: CR, XER, FPRs, VRs and memory are the same after any step. -/
def Obligations.StatusAndMemoryAreNeverWritten : Prop :=
  (∀ (i : Instr) (s t : State), exec i s = .next t → t.status = s.status ∧ t.mem = s.mem) ∧
  (∀ (i : Instr) (s : State) (cr fpr vr : Contents) (xer : Xer),
    answersAlike i s { s with cr := cr, xer := xer, fpr := fpr, vr := vr })

/-- R21: the address is the low 32 bits of the sum, so it wraps modulo 2^32, and the high 32 bits of the
registers have no effect on what a load answers. -/
def Obligations.HighHalvesNeverMatter : Prop :=
  (∀ base offset : Word, (effectiveAddress base offset).toNat = (base.toNat + offset.toNat) % 2 ^ 32) ∧
  (∀ (i : Instr) (s : State) (g : Vector Word 32),
    (∀ r, (g.get r).setWidth 32 = (s.reg r).setWidth 32) → answersAlike i s { s with gpr := g })

/-- With RA = 0 the displacement form reaches exactly the lowest 32 KiB and the highest 32 KiB of the space,
whatever the registers hold (spec/20_memory.md section 5). -/
def Obligations.AbsoluteFormReachesBothEnds : Prop :=
  ∀ (s : State) (rt : RegNum) (a : Addr),
    (∃ d : Disp, loadAddress (.lbz rt 0 d) s = a) ↔ (a.toNat ≤ 0x7FFF ∨ 0xFFFF8000 ≤ a.toNat)

/-! ## Reset and the invariant -/

/-- The state after reset. The spec gives none; registers, pc and memory are the model's choices (log entries 1 to
6, DESIGN CHOICE), the policy and the two empty sets the spec's defaults (spec/00_scope.md section 4). -/
def Obligations.ResetHoldsTheNamedValues : Prop :=
  (∀ r, State.reset.reg r = 0#64) ∧ State.reset.pc = 0#32 ∧ (∀ a, State.reset.mem.read a = none) ∧
  State.reset.policy = .refuse ∧ ∀ a, State.reset.isPlain a = true ∧ State.reset.isShared a = false

/-- The invariant holds after reset (model: canonical lists, aligned pc). -/
def Obligations.ResetMeetsTheInvariant : Prop := State.reset.Inv

/-- Every step from a state that meets the invariant gives one that meets it: memory and sets canonical, text
whole aligned words that hold bytes, pc a multiple of 4 (spec/10_state.md section 2, spec/70_reset_and_hazards.md
section 2). -/
def Obligations.StepKeepsTheInvariant : Prop :=
  ∀ s t : State, s.Inv → step s = .next t → t.Inv

/-- A state that meets the launch premises fetches a word at its entry: its first step is no fetch fault
(spec/70_reset_and_hazards.md section 2). -/
def Obligations.LaunchedStatesFetchAtTheirEntry : Prop :=
  ∀ (s : State) (entry : Addr), s.launchOk entry →
    (∃ w, s.fetch = some w) ∧ ∀ p, step s ≠ .fault (.fetchFault p)

/-! ## Runs -/

/-- Over any number of steps memory, text, the launch parameters and the status state stay as they were, so
a mapped address gives the same byte throughout (spec/20_memory.md sections 1 and 7, rules on one agent and no
store). -/
def Obligations.RunsChangeOnlyRegistersAndPc : Prop :=
  ∀ (k : Nat) (s t : State), Sys2Proof.core.run k s = .next t →
    t.mem = s.mem ∧ t.status = s.status ∧ s.sameParameters t ∧
    ∀ a : Addr, t.mappedByte a = s.mappedByte a ∧ t.isPlain a = s.isPlain a

/-- `k` steps that all complete move `pc` by exactly `4 * k`, without wrapping (spec/10_state.md section 2). -/
def Obligations.RunsAdvancePcByFourEach : Prop :=
  ∀ (k : Nat) (s t : State), Sys2Proof.core.run k s = .next t → t.pc.toNat = s.pc.toNat + 4 * k

/-- In-scope code cannot loop: from no state, reachable or not, do 2^30 steps all complete
(spec/70_reset_and_hazards.md section 3). -/
def Obligations.NoRunGoesOnForever : Prop :=
  ∀ (k : Nat) (s t : State), 2 ^ 30 ≤ k → Sys2Proof.core.run k s ≠ .next t

/-- R72: a run from `pc` at or below `end_pc`, a multiple of 4 away, ends in exactly a quarter of the distance
in steps if those steps complete, and not sooner; a run already at `end_pc` ends without a step; and every
run that ends took exactly that many steps. -/
def Obligations.RunsEndInExactlyTheDistance : Prop :=
  (∀ (endPc : Addr) (n : Nat) (s t : State), s.pc.toNat + 4 * n = endPc.toNat →
    Sys2Proof.core.run n s = .next t →
    (∀ m, n ≤ m → run endPc m s = .ended t) ∧ ∀ m < n, ∃ u, run endPc m s = .unfinished u) ∧
  (∀ (endPc : Addr) (n : Nat) (s : State), s.pc = endPc → run endPc n s = .ended s) ∧
  (∀ (endPc : Addr) (n : Nat) (s t : State), run endPc n s = .ended t →
    t.pc = endPc ∧ s.pc.toNat ≤ endPc.toNat ∧ (endPc.toNat - s.pc.toNat) % 4 = 0 ∧
    Sys2Proof.core.run ((endPc.toNat - s.pc.toNat) / 4) s = .next t)

/-- R62: a run that faults, or is refused, ends with the state exactly as it was before the instruction that did not
complete and after every earlier one; nothing is saved and control goes nowhere. -/
def Obligations.AbnormalEndsKeepTheStateBefore : Prop :=
  ∀ (endPc : Addr) (n : Nat) (s t : State),
    (∀ f, run endPc n s = .faulted f t →
      ∃ k < n, Sys2Proof.core.run k s = .next t ∧ step t = .fault f) ∧
    (∀ r, run endPc n s = .refused r t →
      ∃ k < n, Sys2Proof.core.run k s = .next t ∧ step t = .refused r)
end

