-- ==== Sys2Proof/Laws/Decode.lean ====
section
/-! SUPPORT. The fields of a word and the encoders as arithmetic, and what decoding can answer. -/

namespace Sys2Proof

/-! ## Fields as arithmetic -/

theorem opcdField_toNat (w : InstrWord) : (opcdField w).toNat = w.toNat / 2 ^ 26 % 2 ^ 6 := by
  simp [opcdField, Nat.shiftRight_eq_div_pow]

theorem rtField_val (w : InstrWord) : (rtField w).val = w.toNat / 2 ^ 21 % 2 ^ 5 := by
  simp [rtField, Nat.shiftRight_eq_div_pow]

theorem raField_val (w : InstrWord) : (raField w).val = w.toNat / 2 ^ 16 % 2 ^ 5 := by
  simp [raField, Nat.shiftRight_eq_div_pow]

theorem rbField_val (w : InstrWord) : (rbField w).val = w.toNat / 2 ^ 11 % 2 ^ 5 := by
  simp [rbField, Nat.shiftRight_eq_div_pow]

theorem xoField_toNat (w : InstrWord) : (xoField w).toNat = w.toNat / 2 ^ 1 % 2 ^ 10 := by
  simp [xoField, Nat.shiftRight_eq_div_pow]

theorem rcField_toNat (w : InstrWord) : (rcField w).toNat = w.toNat % 2 := by
  simp [rcField]

theorem dField_toNat (w : InstrWord) : (dField w).toNat = w.toNat % 2 ^ 16 := by
  simp [dField]

/-! ## Encoders as arithmetic -/

/-- Appending `b` of `n` bits below `a` is `a * 2 ^ n + b`. -/
theorem toNat_append_eq {m n : Nat} (a : BitVec m) (b : BitVec n) :
    (a ++ b).toNat = a.toNat * 2 ^ n + b.toNat := by
  rw [BitVec.toNat_append, ← Nat.shiftLeft_add_eq_or_of_lt b.isLt, Nat.shiftLeft_eq]

theorem regBits_toNat (r : RegNum) : (regBits r).toNat = r.val := rfl

theorem encodeD_toNat (o : BitVec 6) (rt ra : RegNum) (d : Disp) :
    (encodeD o rt ra d).toNat = ((o.toNat * 2 ^ 5 + rt.val) * 2 ^ 5 + ra.val) * 2 ^ 16 + d.toNat := by
  simp only [encodeD, toNat_append_eq, regBits_toNat]

theorem encodeX_toNat (xo : BitVec 10) (rc : BitVec 1) (rt ra rb : RegNum) :
    (encodeX xo rc rt ra rb).toNat =
      ((((31 * 2 ^ 5 + rt.val) * 2 ^ 5 + ra.val) * 2 ^ 5 + rb.val) * 2 ^ 10 + xo.toNat) * 2 ^ 1 + rc.toNat := by
  simp only [encodeX, toNat_append_eq, regBits_toNat]
  rfl

/-! ## The masks of R42 as arithmetic -/

/-- The D-form mask keeps the primary opcode. -/
theorem and_maskD_toNat (w : InstrWord) : (w &&& 0xFC000000#32).toNat = w.toNat / 2 ^ 26 * 2 ^ 26 := by
  have hw := w.isLt
  have hm : w &&& 0xFC000000#32 = (w >>> 26) <<< 26 := by
    ext j hj
    simp only [BitVec.getElem_and, BitVec.getElem_shiftLeft]
    interval_cases j <;> simp [BitVec.getElem_eq_testBit_toNat, Nat.testBit] <;>
      simp only [← Nat.shiftRight_add]
  rw [hm, BitVec.toNat_shiftLeft, BitVec.toNat_ushiftRight, Nat.shiftRight_eq_div_pow, Nat.shiftLeft_eq]
  omega

/-- The X-form mask keeps the primary opcode, the extended opcode and bit 31. -/
theorem and_maskX_toNat (w : InstrWord) :
    (w &&& 0xFC0007FF#32).toNat = w.toNat / 2 ^ 26 * 2 ^ 26 + w.toNat % 2 ^ 11 := by
  have hm : w &&& 0xFC0007FF#32 = (w &&& 0xFC000000#32) ||| (w &&& 0x7FF#32) := by
    rw [← BitVec.and_or_distrib_left]; rfl
  have hlow : w.toNat &&& (0x7FF#32 : InstrWord).toNat = w.toNat % 2 ^ 11 :=
    Nat.and_two_pow_sub_one_eq_mod _ 11
  rw [hm, BitVec.toNat_or, and_maskD_toNat, BitVec.toNat_and, hlow, ← Nat.shiftLeft_eq,
    ← Nat.shiftLeft_add_eq_or_of_lt (by omega)]

/-! ## Bytes and words -/

theorem wordOfBytes_bytesOfWord (w : InstrWord) :
    wordOfBytes (w.extractLsb' 24 8) (w.extractLsb' 16 8) (w.extractLsb' 8 8) (w.extractLsb' 0 8) = w := by
  apply BitVec.eq_of_toNat_eq
  simp only [wordOfBytes, toNat_append_eq, BitVec.extractLsb'_toNat, Nat.shiftRight_eq_div_pow]
  have := w.isLt
  omega

/-- A word laid out in memory decodes as the word. -/
@[simp] theorem decodeBytes_bytesOfWord (w : InstrWord) : decodeBytes (bytesOfWord w) = decode w := by
  simp only [bytesOfWord, decodeBytes, wordOfBytes_bytesOfWord]

/-! ## What decoding answers -/

/-- A whole word is never truncated. -/
theorem decode_ne_truncated (w : InstrWord) : decode w ≠ .truncated := by
  unfold decode decodeX
  split_ifs <;> simp

/-- What it takes for a word to decode to an instruction: the opcode fields that select it (R41), and then
its operands are the word's fields. -/
theorem decode_instr_cases {w : InstrWord} {i : Instr} (h : decode w = .instr i) :
    (opcdField w = 34#6 ∧ i = .lbz (rtField w) (raField w) (dField w)) ∨
    (opcdField w = 35#6 ∧ i = .lbzu (rtField w) (raField w) (dField w)) ∨
    (opcdField w = 31#6 ∧ xoField w = 119#10 ∧ rcField w = 0#1 ∧
      i = .lbzux (rtField w) (raField w) (rbField w)) ∨
    (opcdField w = 31#6 ∧ xoField w = 87#10 ∧ rcField w = 0#1 ∧
      i = .lbzx (rtField w) (raField w) (rbField w)) := by
  unfold decode decodeX at h
  split_ifs at h <;> simp_all

/-- What a table row's word decodes to, through the bytes. -/
theorem decodeTableWord_eq_some {nbits w : Nat} {i : Instr} :
    decodeTableWord nbits w = some i ↔ decode (tableWord nbits w) = .instr i := by
  unfold decodeTableWord
  rw [decodeBytes_bytesOfWord]
  cases h : decode (tableWord nbits w) <;> simp

end Sys2Proof
end

