-- ==== Sys2Proof/Laws/Memory.lean ====
section
/-! SUPPORT. The laws of memory and of address sets: read after write, and that every operation keeps the
canonical form. -/

namespace Sys2Proof.Machine

/-! ## Memory -/

@[simp] theorem Memory.read_nil (a : Nat) : Memory.read [] a = none := rfl

/-- Read after write: the byte written at its address, the old contents at every other. It holds of every
list, canonical or not. -/
theorem Memory.read_write (m : Memory) (a a' : Nat) (b : Byte) :
    (m.write a b).read a' = if a' = a then some b else m.read a' := by
  induction m with
  | nil => rfl
  | cons c m ih =>
    simp only [Memory.write]
    split
    · rfl
    · split
      · rename_i h; subst h; simp only [Memory.read]; split <;> rfl
      · simp only [Memory.read, ih]
        split <;> split <;> simp_all

@[simp] theorem Memory.read_write_same (m : Memory) (a : Nat) (b : Byte) :
    (m.write a b).read a = some b := by
  simp [Memory.read_write]

theorem Memory.read_write_ne (m : Memory) (a a' : Nat) (b : Byte) (h : a' ≠ a) :
    (m.write a b).read a' = m.read a' := by
  simp [Memory.read_write, h]

/-- A written list's cells are the new cell and old ones. -/
theorem Memory.mem_write (m : Memory) (a : Nat) (b : Byte) (c : Host.Cell) (h : c ∈ m.write a b) :
    c = (a, b) ∨ c ∈ m := by
  induction m with
  | nil => simpa [Memory.write] using h
  | cons d m ih =>
    simp only [Memory.write] at h
    split at h
    · simpa using h
    · split at h
      · simp only [List.mem_cons] at h ⊢; tauto
      · simp only [List.mem_cons] at h ⊢; tauto

theorem Memory.pairwise_write (m : Memory) (a : Nat) (b : Byte)
    (h : m.Pairwise (fun c c' => c.1 < c'.1)) : (m.write a b).Pairwise (fun c c' => c.1 < c'.1) := by
  induction m with
  | nil => simp [Memory.write]
  | cons d m ih =>
    have hd := List.pairwise_cons.mp h
    simp only [Memory.write]
    split
    · rename_i lt
      refine List.pairwise_cons.mpr ⟨fun c hc => ?_, h⟩
      rcases List.mem_cons.mp hc with rfl | hc
      · exact lt
      · exact lt.trans (hd.1 c hc)
    · split
      · rename_i eq
        exact List.pairwise_cons.mpr ⟨fun c hc => eq ▸ hd.1 c hc, hd.2⟩
      · refine List.pairwise_cons.mpr ⟨fun c hc => ?_, ih hd.2⟩
        rcases Memory.mem_write m a b c hc with rfl | hc
        · simp only; omega
        · exact hd.1 c hc

/-- A write inside the 32-bit space keeps the canonical form. -/
theorem Memory.wf_write (m : Memory) (a : Nat) (b : Byte) (h : m.wf) (ha : a < 2 ^ 32) :
    (m.write a b).wf := by
  refine ⟨m.pairwise_write a b h.1, fun c hc => ?_⟩
  rcases Memory.mem_write m a b c hc with rfl | hc
  · exact ha
  · exact h.2 c hc

/-- In a canonical memory every listed cell is what its address reads as. -/
theorem Memory.read_of_mem (m : Memory) (h : m.wf) (c : Host.Cell) (hc : c ∈ m) :
    m.read c.1 = some c.2 := by
  induction m with
  | nil => cases hc
  | cons d m ih =>
    have hd := List.pairwise_cons.mp h.1
    rcases List.mem_cons.mp hc with rfl | hc
    · simp [Memory.read]
    · have := hd.1 c hc
      simp only [Memory.read]
      rw [if_neg (by omega)]
      exact ih ⟨hd.2, fun c hc => h.2 c (List.mem_cons_of_mem _ hc)⟩ hc

/-! ## Address sets -/

@[simp] theorem AddrSet.has_nil (a : Nat) : AddrSet.has [] a = false := rfl

@[simp] theorem AddrSet.has_eq_true (t : AddrSet) (a : Nat) : t.has a = true ↔ a ∈ t := by
  induction t with
  | nil => simp
  | cons k t ih => simp [AddrSet.has, ih]

/-- Membership after adding an address, in any list. -/
@[simp] theorem AddrSet.mem_insert (t : AddrSet) (a a' : Nat) : a' ∈ t.insert a ↔ a' = a ∨ a' ∈ t := by
  induction t with
  | nil => simp [AddrSet.insert]
  | cons k t ih =>
    simp only [AddrSet.insert]
    split
    · simp
    · split
      · rename_i h; subst h; simp
      · simp only [List.mem_cons, ih]; tauto

theorem AddrSet.pairwise_insert (t : AddrSet) (a : Nat) (h : t.Pairwise (· < ·)) :
    (t.insert a).Pairwise (· < ·) := by
  induction t with
  | nil => simp [AddrSet.insert]
  | cons k t ih =>
    have hk := List.pairwise_cons.mp h
    simp only [AddrSet.insert]
    split
    · rename_i lt
      refine List.pairwise_cons.mpr ⟨fun x hx => ?_, h⟩
      rcases List.mem_cons.mp hx with rfl | hx
      · exact lt
      · exact lt.trans (hk.1 x hx)
    · split
      · exact h
      · refine List.pairwise_cons.mpr ⟨fun x hx => ?_, ih hk.2⟩
        rcases (AddrSet.mem_insert t a x).mp hx with rfl | hx
        · omega
        · exact hk.1 x hx

/-- Adding an address of the 32-bit space keeps the canonical form. -/
theorem AddrSet.wf_insert (t : AddrSet) (a : Nat) (h : t.wf) (ha : a < 2 ^ 32) : (t.insert a).wf := by
  refine ⟨t.pairwise_insert a h.1, fun x hx => ?_⟩
  rcases (AddrSet.mem_insert t a x).mp hx with rfl | hx
  · exact ha
  · exact h.2 x hx

/-! ## The machine's memory operations -/

/-- After reset memory is canonical (nothing is listed). -/
theorem State.reset_mem_wf : State.reset.mem.wf := by decide

/-- Placing text keeps memory canonical. -/
theorem State.placeText_mem_wf (s : State) (a : Addr) (w : InstrWord) (h : s.mem.wf) :
    (s.placeText a w).mem.wf :=
  Memory.wf_write _ _ _ (Memory.wf_write _ _ _ (Memory.wf_write _ _ _ (Memory.wf_write _ _ _ h
    a.isLt) (BitVec.isLt _)) (BitVec.isLt _)) (BitVec.isLt _)

/-- Placing text keeps the text's set canonical. -/
theorem State.placeText_text_wf (s : State) (a : Addr) (w : InstrWord) (h : s.text.wf) :
    (s.placeText a w).text.wf :=
  AddrSet.wf_insert _ _ h a.isLt

end Sys2Proof.Machine
end

