-- ==== Sys2Proof/Laws/State.lean ====
section
/-! SUPPORT. What each state update leaves in each field, so that no later proof unfolds a record update. -/

namespace Sys2Proof.Machine

/-! ## State.setReg -/

@[simp] theorem State.setReg_pc (s : State) (r : RegNum) (v : Word) : (s.setReg r v).pc = s.pc := rfl
@[simp] theorem State.setReg_cr (s : State) (r : RegNum) (v : Word) : (s.setReg r v).cr = s.cr := rfl
@[simp] theorem State.setReg_xer (s : State) (r : RegNum) (v : Word) : (s.setReg r v).xer = s.xer := rfl
@[simp] theorem State.setReg_fpr (s : State) (r : RegNum) (v : Word) : (s.setReg r v).fpr = s.fpr := rfl
@[simp] theorem State.setReg_vr (s : State) (r : RegNum) (v : Word) : (s.setReg r v).vr = s.vr := rfl
@[simp] theorem State.setReg_mem (s : State) (r : RegNum) (v : Word) : (s.setReg r v).mem = s.mem := rfl
@[simp] theorem State.setReg_text (s : State) (r : RegNum) (v : Word) : (s.setReg r v).text = s.text := rfl
@[simp] theorem State.setReg_unmapped (s : State) (r : RegNum) (v : Word) : (s.setReg r v).unmapped = s.unmapped := rfl
@[simp] theorem State.setReg_nonPlain (s : State) (r : RegNum) (v : Word) : (s.setReg r v).nonPlain = s.nonPlain := rfl
@[simp] theorem State.setReg_shared (s : State) (r : RegNum) (v : Word) : (s.setReg r v).shared = s.shared := rfl
@[simp] theorem State.setReg_policy (s : State) (r : RegNum) (v : Word) : (s.setReg r v).policy = s.policy := rfl
@[simp] theorem State.setReg_draws (s : State) (r : RegNum) (v : Word) : (s.setReg r v).draws = s.draws := rfl
@[simp] theorem State.setReg_status (s : State) (r : RegNum) (v : Word) : (s.setReg r v).status = s.status := rfl

/-! ## State.writeBack -/

@[simp] theorem State.writeBack_pc (s : State) (u : Option RegNum) (ea : Addr) : (s.writeBack u ea).pc = s.pc := by cases u <;> rfl
@[simp] theorem State.writeBack_cr (s : State) (u : Option RegNum) (ea : Addr) : (s.writeBack u ea).cr = s.cr := by cases u <;> rfl
@[simp] theorem State.writeBack_xer (s : State) (u : Option RegNum) (ea : Addr) : (s.writeBack u ea).xer = s.xer := by cases u <;> rfl
@[simp] theorem State.writeBack_fpr (s : State) (u : Option RegNum) (ea : Addr) : (s.writeBack u ea).fpr = s.fpr := by cases u <;> rfl
@[simp] theorem State.writeBack_vr (s : State) (u : Option RegNum) (ea : Addr) : (s.writeBack u ea).vr = s.vr := by cases u <;> rfl
@[simp] theorem State.writeBack_mem (s : State) (u : Option RegNum) (ea : Addr) : (s.writeBack u ea).mem = s.mem := by cases u <;> rfl
@[simp] theorem State.writeBack_text (s : State) (u : Option RegNum) (ea : Addr) : (s.writeBack u ea).text = s.text := by cases u <;> rfl
@[simp] theorem State.writeBack_unmapped (s : State) (u : Option RegNum) (ea : Addr) : (s.writeBack u ea).unmapped = s.unmapped := by cases u <;> rfl
@[simp] theorem State.writeBack_nonPlain (s : State) (u : Option RegNum) (ea : Addr) : (s.writeBack u ea).nonPlain = s.nonPlain := by cases u <;> rfl
@[simp] theorem State.writeBack_shared (s : State) (u : Option RegNum) (ea : Addr) : (s.writeBack u ea).shared = s.shared := by cases u <;> rfl
@[simp] theorem State.writeBack_policy (s : State) (u : Option RegNum) (ea : Addr) : (s.writeBack u ea).policy = s.policy := by cases u <;> rfl
@[simp] theorem State.writeBack_draws (s : State) (u : Option RegNum) (ea : Addr) : (s.writeBack u ea).draws = s.draws := by cases u <;> rfl
@[simp] theorem State.writeBack_status (s : State) (u : Option RegNum) (ea : Addr) : (s.writeBack u ea).status = s.status := by cases u <;> rfl

/-! ## State.advancePc -/

@[simp] theorem State.advancePc_gpr (s : State) : (s.advancePc).gpr = s.gpr := rfl
@[simp] theorem State.advancePc_cr (s : State) : (s.advancePc).cr = s.cr := rfl
@[simp] theorem State.advancePc_xer (s : State) : (s.advancePc).xer = s.xer := rfl
@[simp] theorem State.advancePc_fpr (s : State) : (s.advancePc).fpr = s.fpr := rfl
@[simp] theorem State.advancePc_vr (s : State) : (s.advancePc).vr = s.vr := rfl
@[simp] theorem State.advancePc_mem (s : State) : (s.advancePc).mem = s.mem := rfl
@[simp] theorem State.advancePc_text (s : State) : (s.advancePc).text = s.text := rfl
@[simp] theorem State.advancePc_unmapped (s : State) : (s.advancePc).unmapped = s.unmapped := rfl
@[simp] theorem State.advancePc_nonPlain (s : State) : (s.advancePc).nonPlain = s.nonPlain := rfl
@[simp] theorem State.advancePc_shared (s : State) : (s.advancePc).shared = s.shared := rfl
@[simp] theorem State.advancePc_policy (s : State) : (s.advancePc).policy = s.policy := rfl
@[simp] theorem State.advancePc_draws (s : State) : (s.advancePc).draws = s.draws := rfl
@[simp] theorem State.advancePc_status (s : State) : (s.advancePc).status = s.status := rfl
@[simp] theorem State.advancePc_reg (s : State) (r : RegNum) : (s.advancePc).reg r = s.reg r := rfl
@[simp] theorem State.advancePc_pc (s : State) : s.advancePc.pc = s.pc + 4#32 := rfl

/-! ## State.placeText -/

@[simp] theorem State.placeText_gpr (s : State) (a : Addr) (w : InstrWord) : (s.placeText a w).gpr = s.gpr := rfl
@[simp] theorem State.placeText_pc (s : State) (a : Addr) (w : InstrWord) : (s.placeText a w).pc = s.pc := rfl
@[simp] theorem State.placeText_cr (s : State) (a : Addr) (w : InstrWord) : (s.placeText a w).cr = s.cr := rfl
@[simp] theorem State.placeText_xer (s : State) (a : Addr) (w : InstrWord) : (s.placeText a w).xer = s.xer := rfl
@[simp] theorem State.placeText_fpr (s : State) (a : Addr) (w : InstrWord) : (s.placeText a w).fpr = s.fpr := rfl
@[simp] theorem State.placeText_vr (s : State) (a : Addr) (w : InstrWord) : (s.placeText a w).vr = s.vr := rfl
@[simp] theorem State.placeText_unmapped (s : State) (a : Addr) (w : InstrWord) : (s.placeText a w).unmapped = s.unmapped := rfl
@[simp] theorem State.placeText_nonPlain (s : State) (a : Addr) (w : InstrWord) : (s.placeText a w).nonPlain = s.nonPlain := rfl
@[simp] theorem State.placeText_shared (s : State) (a : Addr) (w : InstrWord) : (s.placeText a w).shared = s.shared := rfl
@[simp] theorem State.placeText_policy (s : State) (a : Addr) (w : InstrWord) : (s.placeText a w).policy = s.policy := rfl
@[simp] theorem State.placeText_draws (s : State) (a : Addr) (w : InstrWord) : (s.placeText a w).draws = s.draws := rfl
@[simp] theorem State.placeText_status (s : State) (a : Addr) (w : InstrWord) : (s.placeText a w).status = s.status := rfl
@[simp] theorem State.placeText_reg (s : State) (a : Addr) (w : InstrWord) (r : RegNum) : (s.placeText a w).reg r = s.reg r := rfl

/-! ## Reading registers back -/

/-- A register read after a register write (R6): the value written, or the old one elsewhere. -/
theorem State.reg_setReg (s : State) (r r' : RegNum) (v : Word) :
    (s.setReg r v).reg r' = if r' = r then v else s.reg r' := by
  unfold State.reg State.setReg
  simp only [Vector.get_eq_getElem, Vector.getElem_set, Fin.ext_iff]
  split <;> split <;> simp_all

@[simp] theorem State.reg_setReg_same (s : State) (r : RegNum) (v : Word) : (s.setReg r v).reg r = v := by
  simp [State.reg_setReg]

@[simp] theorem State.reg_setReg_ne (s : State) (r r' : RegNum) (v : Word) (h : r' ≠ r) :
    (s.setReg r v).reg r' = s.reg r' := by
  simp [State.reg_setReg, h]

@[simp] theorem State.reg_writeBack_none (s : State) (ea : Addr) (r : RegNum) :
    (s.writeBack none ea).reg r = s.reg r := rfl

/-- The write-back of an update form puts the zero-extended address in RA (R54, R55). -/
theorem State.reg_writeBack_some (s : State) (ra r : RegNum) (ea : Addr) :
    (s.writeBack (some ra) ea).reg r = if r = ra then ea.setWidth 64 else s.reg r :=
  s.reg_setReg ra r _

/-- Every register is 0 after reset (log entry 1). -/
@[simp] theorem State.reset_reg (r : RegNum) : State.reset.reg r = 0#64 := by
  simp [State.reg, State.reset, Config.resetGpr, Vector.get_eq_getElem]

end Sys2Proof.Machine
end

