-- ==== Sys2Proof/Laws/Load.lean ====
section
/-! SUPPORT. Everything a load and a step can do, said once: the cases of the read primitive, of the shared load
operation, of `exec` and of `step`. -/

namespace Sys2Proof.Machine

/-! ## The read primitive (R22, R29) -/

theorem State.memRead_unmapped {s : State} {a : Addr} (h : s.mappedByte a = none) :
    s.memRead a = .unmapped := by
  simp [State.memRead, h]

theorem State.memRead_nonPlain {s : State} {a : Addr} {b : Byte} (h : s.mappedByte a = some b)
    (hp : s.isPlain a = false) : s.memRead a = .nonPlain := by
  simp [State.memRead, h, hp]

theorem State.memRead_plain {s : State} {a : Addr} {b : Byte} (h : s.mappedByte a = some b)
    (hp : s.isPlain a = true) (hs : s.isShared a = false) : s.memRead a = .byte b s := by
  simp [State.memRead, h, hp, hs]

theorem State.memRead_shared {s : State} {a : Addr} {b : Byte} (h : s.mappedByte a = some b)
    (hp : s.isPlain a = true) (hs : s.isShared a = true) :
    s.memRead a = .byte (Config.sharedByte s.draws) { s with draws := s.draws + 1 } := by
  simp [State.memRead, h, hp, hs]

/-- The four answers of a read and when each is given. -/
theorem State.memRead_cases (s : State) (a : Addr) :
    (s.mappedByte a = none ∧ s.memRead a = .unmapped) ∨
    (∃ b, s.mappedByte a = some b ∧ s.isPlain a = false ∧ s.memRead a = .nonPlain) ∨
    (∃ b, s.mappedByte a = some b ∧ s.isPlain a = true ∧ s.isShared a = false ∧ s.memRead a = .byte b s) ∨
    (∃ b, s.mappedByte a = some b ∧ s.isPlain a = true ∧ s.isShared a = true ∧
      s.memRead a = .byte (Config.sharedByte s.draws) { s with draws := s.draws + 1 }) := by
  cases h : s.mappedByte a with
  | none => exact .inl ⟨rfl, State.memRead_unmapped h⟩
  | some b =>
    cases hp : s.isPlain a with
    | false => exact .inr (.inl ⟨b, rfl, rfl, State.memRead_nonPlain h hp⟩)
    | true =>
      cases hs : s.isShared a with
      | false => exact .inr (.inr (.inl ⟨b, rfl, rfl, rfl, State.memRead_plain h hp hs⟩))
      | true => exact .inr (.inr (.inr ⟨b, rfl, rfl, rfl, State.memRead_shared h hp hs⟩))

/-! ## The shared load operation -/

/-- The next state of a load that completes, from the byte read and the state after the read. -/
def State.loaded (s' : State) (rt : RegNum) (upd : Option RegNum) (ea : Addr) (b : Byte) : State :=
  ((s'.setReg rt (zeroExtendByte b)).writeBack upd ea).advancePc

/-- The four outcomes of a load, in the order of R63 (4) to (7). -/
theorem State.loadByteZero_cases (s : State) (rt : RegNum) (upd : Option RegNum) (ea : Addr) :
    (s.mappedByte ea = none ∧ s.loadByteZero rt upd ea = .fault (.dataAccessFault ea)) ∨
    ((s.mappedByte ea).isSome ∧ s.isPlain ea = false ∧
      s.loadByteZero rt upd ea = .refused (.nonPlainRead ea)) ∨
    ((s.mappedByte ea).isSome ∧ s.isPlain ea = true ∧ s.pc = topPc ∧
      s.loadByteZero rt upd ea = .fault .pcOverflow) ∨
    (∃ b s', (s.mappedByte ea).isSome ∧ s.isPlain ea = true ∧ s.pc ≠ topPc ∧ s.memRead ea = .byte b s' ∧
      s.loadByteZero rt upd ea = .next (s'.loaded rt upd ea b)) := by
  unfold State.loadByteZero State.loaded
  rcases s.memRead_cases ea with ⟨h, hr⟩ | ⟨b, h, hp, hr⟩ | ⟨b, h, hp, -, hr⟩ | ⟨b, h, hp, -, hr⟩
  · simp [hr, h, raise]
  · simp [hr, h, hp, refuse]
  all_goals
    by_cases hpc : s.pc = topPc
    · simp [hr, h, hp, hpc, raise]
    · simp [hr, h, hp, hpc]

/-- A byte is read from a state that differs at most in the model's draw counter. -/
theorem State.memRead_byte_state {s s' : State} {a : Addr} {b : Byte} (h : s.memRead a = .byte b s') :
    s' = { s with draws := s'.draws } := by
  rcases s.memRead_cases a with ⟨-, hr⟩ | ⟨_, -, -, hr⟩ | ⟨_, -, -, -, hr⟩ | ⟨_, -, -, -, hr⟩ <;>
    rw [h] at hr <;> cases hr <;> rfl

/-- What a byte that was read is: the mapped byte, unless the address is shared. -/
theorem State.mappedByte_of_memRead {s s' : State} {a : Addr} {b : Byte} (h : s.memRead a = .byte b s') :
    (s.mappedByte a).isSome = true ∧ (s.isShared a = false → s.mappedByte a = some b) := by
  rcases s.memRead_cases a with ⟨-, hr⟩ | ⟨_, -, -, hr⟩ | ⟨_, hb, -, -, hr⟩ | ⟨_, hb, -, hs, hr⟩ <;>
    rw [h] at hr <;> cases hr
  · simp [hb]
  · simp [hb, hs]

@[simp] theorem State.loaded_pc (s : State) (rt : RegNum) (upd : Option RegNum) (ea : Addr) (b : Byte) :
    (s.loaded rt upd ea b).pc = s.pc + 4#32 := by
  cases upd <;> rfl

@[simp] theorem State.loaded_draws (s : State) (rt : RegNum) (upd : Option RegNum) (ea : Addr) (b : Byte) :
    (s.loaded rt upd ea b).draws = s.draws := by
  cases upd <;> rfl

/-- The registers after a load: the address in the updated base, else the byte in the destination, else the old
value. Where both are one register the address stays (R57). -/
theorem State.loaded_reg (s : State) (rt : RegNum) (upd : Option RegNum) (ea : Addr) (b : Byte) (r : RegNum) :
    (s.loaded rt upd ea b).reg r =
      if upd = some r then ea.setWidth 64 else if r = rt then b.setWidth 64 else s.reg r := by
  cases upd with
  | none => simp [State.loaded, State.reg_setReg, zeroExtendByte]
  | some ra => simp [State.loaded, State.reg_writeBack_some, State.reg_setReg, zeroExtendByte, eq_comm]

/-- The frame of a load, whose byte came from a state that differs at most in the draw counter. -/
theorem State.loaded_unchangedExcept {s s' : State} (h : s' = { s with draws := s'.draws })
    (rt : RegNum) (upd : Option RegNum) (ea : Addr) (b : Byte) :
    s.unchangedExcept (s'.loaded rt upd ea b) (rt :: upd.toList) := by
  have hm : (s'.loaded rt upd ea b).mem = s.mem := by rw [h]; cases upd <;> rfl
  refine ⟨fun r hr => ?_, ?_, fun a => by rw [hm], hm, ?_⟩
  · have hold : s'.reg r = s.reg r := by rw [h]; rfl
    simp only [List.mem_cons, Option.mem_toList, not_or] at hr
    rw [State.loaded_reg, if_neg (fun e => hr.2 e), if_neg hr.1, hold]
  · rw [h]; cases upd <;> rfl
  · rw [h]; cases upd <;> exact ⟨rfl, rfl, rfl, rfl, rfl⟩

/-! ## exec -/

@[simp] theorem writes_eq (i : Instr) : writes i = destReg i :: (updateReg i).toList := by
  cases i <;> rfl

/-- The check the machine makes for invalid forms is the one well-formedness makes (R44). -/
theorem wellFormed_lbzu (rt ra : RegNum) (d : Disp) :
    (Sys2Proof.Instr.lbzu rt ra d).wellFormed = !invalidUpdateForm rt ra := by
  simp [Sys2Proof.Instr.wellFormed, invalidUpdateForm, bne]

theorem wellFormed_lbzux (rt ra rb : RegNum) :
    (Sys2Proof.Instr.lbzux rt ra rb).wellFormed = !invalidUpdateForm rt ra := by
  simp [Sys2Proof.Instr.wellFormed, invalidUpdateForm, bne]

/-- `exec` refuses a form that is not allowed and otherwise is one load at the instruction's address. -/
theorem exec_eq (i : Instr) (s : State) :
    exec i s = if i.wellFormed = false ∧ s.policy = .refuse then .refused (.invalidForm (encode i))
      else s.loadByteZero (destReg i) (updateReg i) (loadAddress i s) := by
  cases i with
  | lbz rt ra d => simp [exec, execLbz, Instr.wellFormed, destReg, updateReg, loadAddress]
  | lbzu rt ra d =>
    simp [exec, execLbzu, State.loadByteUpdate, wellFormed_lbzu, destReg, updateReg, loadAddress, refuse]
  | lbzux rt ra rb =>
    simp [exec, execLbzux, State.loadByteUpdate, wellFormed_lbzux, destReg, updateReg, loadAddress, refuse]
  | lbzx rt ra rb => simp [exec, execLbzx, Instr.wellFormed, destReg, updateReg, loadAddress]

theorem not_formAllowed_iff (i : Instr) (s : State) :
    ¬ formAllowed i s ↔ i.wellFormed = false ∧ s.policy = .refuse := by
  unfold formAllowed
  cases i.wellFormed <;> cases s.policy <;> simp

theorem exec_of_allowed {i : Instr} {s : State} (h : formAllowed i s) :
    exec i s = s.loadByteZero (destReg i) (updateReg i) (loadAddress i s) := by
  rw [exec_eq, if_neg]
  exact fun hn => (not_formAllowed_iff i s).mpr hn h

theorem exec_of_not_allowed {i : Instr} {s : State} (h : ¬ formAllowed i s) :
    exec i s = .refused (.invalidForm (encode i)) := by
  rw [exec_eq, if_pos ((not_formAllowed_iff i s).mp h)]

/-- Everything `exec` can do when it answers a next state. -/
theorem exec_next {i : Instr} {s t : State} (h : exec i s = .next t) :
    formAllowed i s ∧ s.isPlain (loadAddress i s) = true ∧ s.pc ≠ topPc ∧
      ∃ b s', s.memRead (loadAddress i s) = .byte b s' ∧
        t = s'.loaded (destReg i) (updateReg i) (loadAddress i s) b := by
  by_cases ha : formAllowed i s
  · rw [exec_of_allowed ha] at h
    rcases s.loadByteZero_cases (destReg i) (updateReg i) (loadAddress i s) with
      ⟨-, hr⟩ | ⟨-, -, hr⟩ | ⟨-, -, -, hr⟩ | ⟨b, s', -, hp, hpc, hb, hr⟩ <;> rw [hr] at h <;> cases h
    exact ⟨ha, hp, hpc, b, s', hb, rfl⟩
  · rw [exec_of_not_allowed ha] at h; cases h

/-- An allowed form whose byte can be read completes below the top of the space. -/
theorem exec_completes {i : Instr} {s s' : State} {b : Byte} (ha : formAllowed i s)
    (hm : s.memRead (loadAddress i s) = .byte b s') (hpc : s.pc ≠ topPc) :
    exec i s = .next (s'.loaded (destReg i) (updateReg i) (loadAddress i s) b) := by
  simp [exec_of_allowed ha, State.loadByteZero, hm, hpc, State.loaded]

/-! ## Fetch -/

/-- Everything a fetch that answers a word says of the state (R14, R25). -/
theorem State.fetch_eq_some {s : State} {w : InstrWord} :
    s.fetch = some w ↔ s.pc.toNat % 4 = 0 ∧ ∃ b0 b1 b2 b3, s.textByte s.pc = some b0 ∧
      s.textByte (s.pc + 1#32) = some b1 ∧ s.textByte (s.pc + 2#32) = some b2 ∧
      s.textByte (s.pc + 3#32) = some b3 ∧ w = wordOfBytes b0 b1 b2 b3 := by
  unfold State.fetch
  constructor
  · intro h
    split_ifs at h with ha
    refine ⟨ha, ?_⟩
    split at h
    · rename_i b0 b1 b2 b3 h0 h1 h2 h3
      exact ⟨b0, b1, b2, b3, h0, h1, h2, h3, by simpa using h.symm⟩
    · cases h
  · rintro ⟨ha, b0, b1, b2, b3, h0, h1, h2, h3, rfl⟩
    simp [ha, h0, h1, h2, h3]

/-! ## step -/

/-- A step that answers a next state has fetched and decoded an instruction and executed it. -/
theorem step_next {s t : State} (h : step s = .next t) :
    ∃ w i, s.fetch = some w ∧ decode w = .instr i ∧ exec i s = .next t := by
  unfold step raise refuse at h
  cases hf : s.fetch with
  | none => simp [hf] at h
  | some w =>
    simp only [hf] at h
    cases hd : decode w with
    | instr i => exact ⟨w, i, rfl, hd, by simpa [hd] using h⟩
    | reservedEncoding => simp [hd] at h
    | outOfScope => simp [hd] at h
    | truncated => simp [hd] at h

end Sys2Proof.Machine
end

