-- ==== Sys2Proof/Laws/PerInstr.lean ====
section
/-! SUPPORT. The per-instruction family `TableRow`: the word of each instruction fits the mask and match of its row of
spec/opcode_table.json (R41, R42). -/

namespace Sys2Proof.Laws.TableRow

/-- The row's mask and match, as R42 gives them. -/
def row : Instr → InstrWord × InstrWord
  | .lbz _ _ _ => (0xFC000000#32, 0x88000000#32)
  | .lbzu _ _ _ => (0xFC000000#32, 0x8C000000#32)
  | .lbzux _ _ _ => (0xFC0007FF#32, 0x7C0000EE#32)
  | .lbzx _ _ _ => (0xFC0007FF#32, 0x7C0000AE#32)

/-- The instruction's word fits its row. -/
def Statement (i : Instr) : Prop := encode i &&& (row i).1 = (row i).2

/-- The D-form mask looks at the primary opcode alone. -/
theorem encodeD_mask (o : BitVec 6) (rt ra : RegNum) (d : Disp) :
    encodeD o rt ra d &&& 0xFC000000#32 = o ++ 0#5 ++ 0#5 ++ 0#16 := by
  rw [show (0xFC000000#32 : InstrWord) = BitVec.allOnes 6 ++ 0#5 ++ 0#5 ++ 0#16 by decide]
  change ((o ++ regBits rt ++ regBits ra ++ d : BitVec (6 + 5 + 5 + 16)) &&&
    (BitVec.allOnes 6 ++ 0#5 ++ 0#5 ++ 0#16 : BitVec (6 + 5 + 5 + 16))) = _
  simp only [BitVec.and_append, BitVec.and_allOnes, BitVec.and_zero]

/-- The X-form mask looks at the primary and extended opcodes and bit 31. -/
theorem encodeX_mask (xo : BitVec 10) (rc : BitVec 1) (rt ra rb : RegNum) :
    encodeX xo rc rt ra rb &&& 0xFC0007FF#32 = 31#6 ++ 0#5 ++ 0#5 ++ 0#5 ++ xo ++ rc := by
  rw [show (0xFC0007FF#32 : InstrWord) =
    BitVec.allOnes 6 ++ 0#5 ++ 0#5 ++ 0#5 ++ BitVec.allOnes 10 ++ BitVec.allOnes 1 by decide]
  change ((31#6 ++ regBits rt ++ regBits ra ++ regBits rb ++ xo ++ rc : BitVec (6 + 5 + 5 + 5 + 10 + 1)) &&&
    (BitVec.allOnes 6 ++ 0#5 ++ 0#5 ++ 0#5 ++ BitVec.allOnes 10 ++ BitVec.allOnes 1 :
      BitVec (6 + 5 + 5 + 5 + 10 + 1))) = _
  simp only [BitVec.and_append, BitVec.and_allOnes, BitVec.and_zero]

theorem lbz (rt ra : RegNum) (d : Disp) : Statement (.lbz rt ra d) := encodeD_mask 34#6 rt ra d

theorem lbzu (rt ra : RegNum) (d : Disp) : Statement (.lbzu rt ra d) := encodeD_mask 35#6 rt ra d

theorem lbzux (rt ra rb : RegNum) : Statement (.lbzux rt ra rb) := encodeX_mask 119#10 0#1 rt ra rb

theorem lbzx (rt ra rb : RegNum) : Statement (.lbzx rt ra rb) := encodeX_mask 87#10 0#1 rt ra rb

end Sys2Proof.Laws.TableRow
end

