-- ==== Sys2Proof/Laws/Run.lean ====
section
/-! SUPPORT. One step of a run peeled off, for the host's `Core.run` and for `run` to `end_pc`. -/

namespace Sys2Proof.Machine

@[simp] theorem core_run_zero (s : State) : Sys2Proof.core.run 0 s = .next s := rfl

/-- A run of `k + 1` steps that completes is one step and a run of `k`. -/
theorem core_run_succ {k : Nat} {s u : State} :
    Sys2Proof.core.run (k + 1) s = .next u ↔ ∃ t, step s = .next t ∧ Sys2Proof.core.run k t = .next u := by
  simp only [Host.Core.run]
  constructor
  · intro h
    cases hs : Sys2Proof.core.step s with
    | next t => rw [hs] at h; exact ⟨t, hs, h⟩
    | fault f => rw [hs] at h; cases h
    | refused q => rw [hs] at h; cases h
  · rintro ⟨t, hs, h⟩
    have hs : Sys2Proof.core.step s = .next t := hs
    rw [hs]; exact h

theorem run_at_end {endPc : Addr} {n : Nat} {s : State} (h : s.pc = endPc) : run endPc n s = .ended s := by
  cases n <;> simp [run, h]

theorem run_step {endPc : Addr} {n : Nat} {s t : State} (h : s.pc ≠ endPc) (hs : step s = .next t) :
    run endPc (n + 1) s = run endPc n t := by
  simp [run, h, hs]

end Sys2Proof.Machine
end

