-- ==== Sys2Proof/Tests/Slice0.lean ====
section
/-! SUPPORT. Tests. Expected values are those of spec/95_test_vectors.md (named in each docstring) or worked out by hand from
the rule named. A `witness_` theorem shows a state and operands that meet the hypotheses of one clause of a
statement. -/

namespace Sys2Proof.Tests
open Sys2Proof Sys2Proof.Machine

/-! ## Well-formedness: each check refuses its ill-formed term (R44) -/

theorem test_wellFormed_lbzu_base_zero : (Instr.lbzu 3 0 1#16).wellFormed = false := by decide
theorem test_wellFormed_lbzu_base_is_target : (Instr.lbzu 4 4 1#16).wellFormed = false := by decide
theorem test_wellFormed_lbzux_base_zero : (Instr.lbzux 3 0 5).wellFormed = false := by decide
theorem test_wellFormed_lbzux_base_is_target : (Instr.lbzux 4 4 5).wellFormed = false := by decide
theorem test_wellFormed_accepts : (Instr.lbzu 3 4 1#16).wellFormed = true ∧ (Instr.lbzux 5 4 5).wellFormed = true ∧
    (Instr.lbz 0 0 0#16).wellFormed = true ∧ (Instr.lbzx 4 4 4).wellFormed = true := by decide

/-! ## Decoding, from words written out bit by bit (R36, R37, R41) -/

/-- E21, in fields: 100010 00011 00100 0111111111111111. -/
theorem test_decode_lbz_bits : decode 0b10001000011001000111111111111111#32 = .instr (.lbz 3 4 0x7FFF#16) := by decide
/-- E5, in fields: 100011 11111 11110 1000000000000000. -/
theorem test_decode_lbzu_bits : decode 0b10001111111111101000000000000000#32 = .instr (.lbzu 31 30 0x8000#16) := by decide
/-- E9, in fields: 011111 11111 11110 11101 0001110111 0. -/
theorem test_decode_lbzux_bits : decode 0b01111111111111101110100011101110#32 = .instr (.lbzux 31 30 29) := by decide
/-- V16, in fields: 011111 00011 00100 00101 0001010111 0. -/
theorem test_decode_lbzx_bits : decode 0b01111100011001000010100010101110#32 = .instr (.lbzx 3 4 5) := by decide
/-- E13, E14, E16, E18. -/
theorem test_decode_rejects : decode 0x7C6428AF#32 = .reservedEncoding ∧ decode 0x7C6428EF#32 = .reservedEncoding ∧
    decode 0x7C00012E#32 = .outOfScope ∧ decode 0x90000000#32 = .outOfScope ∧ decode 0#32 = .outOfScope := by decide
/-- V12a's bytes in the order they lie in memory, and a piece too short to hold a word. -/
theorem test_decodeBytes : decodeBytes [0x8c#8, 0x64#8, 0x00#8, 0x01#8] = .instr (.lbzu 3 4 1#16) ∧
    decodeBytes [0x8c#8, 0x64#8, 0x00#8] = .truncated := by decide
/-- V18, V21, V2, V12: the encoder gives the words of the vectors. -/
theorem test_encode : encode (.lbzx 3 4 5) = 0x7C6428AE#32 ∧ encode (.lbzux 3 4 5) = 0x7C6428EE#32 ∧
    encode (.lbz 3 4 4#16) = 0x88640004#32 ∧ encode (.lbzu 3 4 0xFFFF#16) = 0x8C64FFFF#32 := by decide

/-- V1, V12, V21 and V17: the lines of the vectors assemble to their words. -/
theorem test_assemble :
    (assemble ⟨"lbz", [.plain (.r 3), .disp 0x4000 .zero]⟩).map encode = some 0x88604000#32 ∧
    (assemble ⟨"lbzu", [.plain (.r 3), .disp (-1) (.r 4)]⟩).map encode = some 0x8C64FFFF#32 ∧
    (assemble ⟨"lbzux", [.plain (.r 3), .plain (.r 4), .plain (.r 5)]⟩).map encode = some 0x7C6428EE#32 ∧
    (assemble ⟨"lbzx", [.plain (.r 3), .plain .zero, .plain (.r 5)]⟩).map encode = some 0x7C6028AE#32 := by decide
/-- R39: the ends of the displacement's range, and the values just outside it. -/
theorem test_displacement_range :
    fieldOfDisp (-32768) = some 0x8000#16 ∧ fieldOfDisp 32767 = some 0x7FFF#16 ∧
    fieldOfDisp (-32769) = none ∧ fieldOfDisp 32768 = none := by decide

/-! ## A small state -/

/-- The reset state with the word as program text at `pc`, the registers set and the bytes in memory. -/
def placed (pc : Addr) (w : InstrWord) (regs : List (RegNum × Word)) (data : Memory) : State :=
  (regs.foldl (fun (s : State) r => s.setReg r.1 r.2) { State.reset with pc := pc, mem := data }).placeText pc w

def nextHas (o : StepOutcome) (p : State → Bool) : Bool :=
  match o with
  | .next t => p t
  | .fault _ => false
  | .refused _ => false

def faultsWith (o : StepOutcome) (f : Fault) : Bool :=
  match o with
  | .next _ => false
  | .fault g => g == f
  | .refused _ => false

def refusedWith (o : StepOutcome) (q : Refusal) : Bool :=
  match o with
  | .next _ => false
  | .fault _ => false
  | .refused r => r == q

/-! ## One step each, two vectors an instruction -/

/-- V8: field RA = 0 is the literal zero although r0 is not zero; r0 is the destination. -/
theorem test_lbz_literal_zero_base :
    nextHas (step (placed 0x10000 0x88004000 [(0, 0x1234)] [(0x4000, 0xAB)]))
      (fun t => t.reg 0 == 0xAB && t.pc == 0x10004) = true := by decide
/-- V3: negative displacement; the byte's bit 7 is not propagated. -/
theorem test_lbz_negative_displacement :
    nextHas (step (placed 0x10000 0x8864FFFF [(3, 0xFFFFFFFFFFFFFFFF), (4, 0x1000)] [(0xFFF, 0x80)]))
      (fun t => t.reg 3 == 0x80 && t.reg 4 == 0x1000) = true := by decide
/-- V11: the base's high half is dropped from the written-back address. -/
theorem test_lbzu_cleans_base :
    nextHas (step (placed 0x10000 0x8C640001 [(4, 0x0000000100000FFF)] [(0x1000, 0x5A)]))
      (fun t => t.reg 3 == 0x5A && t.reg 4 == 0x1000) = true := by decide
/-- V12: from 0 by -1 the base becomes 0x00000000FFFFFFFF. -/
theorem test_lbzu_wraps_to_32_bits :
    nextHas (step (placed 0x10000 0x8C64FFFF [(3, 5)] [(0xFFFFFFFF, 0xFF)]))
      (fun t => t.reg 3 == 0xFF && t.reg 4 == 0x00000000FFFFFFFF) = true := by decide
/-- V24: RT = RB, the index read before it is overwritten. -/
theorem test_lbzux_target_is_index :
    nextHas (step (placed 0x10000 0x7CA428EE [(4, 0x1000), (5, 0x10)] [(0x1010, 0x99)]))
      (fun t => t.reg 5 == 0x99 && t.reg 4 == 0x1010) = true := by decide
/-- V25: RA = RB. -/
theorem test_lbzux_base_is_index :
    nextHas (step (placed 0x10000 0x7C6420EE [(4, 0x800)] [(0x1000, 0x5A)]))
      (fun t => t.reg 3 == 0x5A && t.reg 4 == 0x1000) = true := by decide
/-- V19: the 64-bit carry is discarded and the address wraps to 0. -/
theorem test_lbzx_wraps :
    nextHas (step (placed 0x10000 0x7C6428AE [(4, 0xFFFFFFFFFFFFFFFF), (5, 1)] [(0, 0x11)]))
      (fun t => t.reg 3 == 0x11 && t.reg 4 == 0xFFFFFFFFFFFFFFFF) = true := by decide
/-- V20c: RB = 0 is the register r0. -/
theorem test_lbzx_index_r0 :
    nextHas (step (placed 0x10000 0x7C6400AE [(0, 0x10), (4, 0x1000)] [(0x1010, 0x99)]))
      (fun t => t.reg 3 == 0x99 && t.pc == 0x10004) = true := by decide

/-! ## Stops and policies -/

/-- V14 and V15, policy `refuse`. -/
theorem test_invalid_form_refused :
    refusedWith (step (placed 0x10000 0x8C600001 [(0, 0x1000)] [(0x1001, 0xC3)])) (.invalidForm 0x8C600001) = true ∧
    refusedWith (step (placed 0x10000 0x8C840001 [(4, 0x1000)] [(0x1001, 0xC3)])) (.invalidForm 0x8C840001) = true := by decide
/-- V26 and V27, policy `snapshot`: r0 as the base register, and the byte lost. -/
theorem test_invalid_form_snapshot :
    nextHas (step { placed 0x10000 0x7C6028EE [(0, 0x1000), (5, 1)] [(0x1001, 0xC3)] with policy := .snapshot })
      (fun t => t.reg 3 == 0xC3 && t.reg 0 == 0x1001) = true ∧
    nextHas (step { placed 0x10000 0x7C8428EE [(4, 0x1000), (5, 1)] [(0x1001, 0xC3)] with policy := .snapshot })
      (fun t => t.reg 4 == 0x1001) = true := by decide
/-- X9: a load of its own instruction's address reads its first byte. -/
theorem test_text_reads_as_data :
    nextHas (step (placed 0x10000 0x88640000 [(4, 0x10000)] [])) (fun t => t.reg 3 == 0x88) = true := by decide
/-- R30: the four ends of what `lbz` with RA = 0 reaches. -/
theorem test_absolute_bounds :
    loadAddress (.lbz 3 0 0x7FFF) State.reset = 0x7FFF ∧ loadAddress (.lbz 3 0 0x8000) State.reset = 0xFFFF8000 ∧
    loadAddress (.lbz 3 0 0) State.reset = 0 ∧ loadAddress (.lbz 3 0 0xFFFF) State.reset = 0xFFFFFFFF := by decide
/-- P5, second step: the run ends faulted with the state before the step. -/
theorem test_run_ends_faulted :
    (match run 0x10008 1 (placed 0x10004 0x8CC40001 [(4, 0x3000), (5, 0x48)] []) with
      | .faulted f t => f == .dataAccessFault 0x3001 && t.pc == 0x10004 && t.reg 4 == 0x3000 && t.reg 5 == 0x48
      | .ended _ => false
      | .refused _ _ => false
      | .unfinished _ => false) = true := by decide

/-! ## Witnesses -/

/-- V2's state, its instruction at `pc`. -/
def v2 (pc : Addr) : State := placed pc 0x88640004 [(4, 0x1000)] [(0x1004, 0x7F)]
/-- V12a's state: `lbzu r3, 1(r4)`. -/
def v12a : State := placed 0x10000 0x8C640001 [(4, 0x1000)] [(0x1001, 0xC3)]
/-- V16's and V21's state, with the word of either at `pc`. -/
def v16 (w : InstrWord) : State := placed 0x10000 w [(4, 0x1000), (5, 0x10)] [(0x1010, 0x99)]
/-- V15's state: `lbzu r4, 1(r4)`, an invalid form. -/
def v15 : State := placed 0x10000 0x8C840001 [(4, 0x1000)] [(0x1001, 0xC3)]

theorem witness_EncodeOfDecodeIsTheWord : decode 0x88640004#32 = .instr (.lbz 3 4 4#16) := by decide

theorem witness_DecodingFollowsTheMaskTable_matches :
    0x88640004#32 &&& 0xFC000000#32 = 0x88000000#32 ∧ 0x8FFFFFFF#32 &&& 0xFC000000#32 = 0x8C000000#32 ∧
    0x7FFFF8EE#32 &&& 0xFC0007FF#32 = 0x7C0000EE#32 ∧ 0x7FFFF8AE#32 &&& 0xFC0007FF#32 = 0x7C0000AE#32 := by decide
theorem witness_DecodingFollowsTheMaskTable_none :
    0x7C0000AF#32 &&& 0xFC000000#32 ≠ 0x88000000#32 ∧ 0x7C0000AF#32 &&& 0xFC000000#32 ≠ 0x8C000000#32 ∧
    0x7C0000AF#32 &&& 0xFC0007FF#32 ≠ 0x7C0000EE#32 ∧ 0x7C0000AF#32 &&& 0xFC0007FF#32 ≠ 0x7C0000AE#32 := by decide
theorem witness_DecodingFollowsTheMaskTable_invalid :
    decode 0x8C840001#32 = .instr (.lbzu 4 4 1#16) ∧ 0x8C840001#32 &&& 0xFC000000#32 = 0x8C000000#32 ∧
    raField 0x8C840001#32 = rtField 0x8C840001#32 ∧ v15.policy = .refuse := by decide

theorem witness_RecordBitWordsAreReserved :
    (0x7C6428AF#32 : InstrWord).toNat >>> 26 = 31 ∧ ((0x7C6428AF#32 : InstrWord).toNat >>> 1) &&& 0x3FF = 87 ∧
    ((0x7C6428EF#32 : InstrWord).toNat >>> 1) &&& 0x3FF = 119 ∧ (0x7C6428AF#32 : InstrWord).toNat &&& 1 = 1 ∧
    (v16 0x7C6428AF).fetch = some 0x7C6428AF#32 := by decide

/-- Neither branch's word matches a pattern (X5 and X6). -/
theorem witness_UnmatchedWordsAreRefused :
    (v16 0x7C6428AF).fetch = some 0x7C6428AF#32 ∧ 0x7C6428AF#32 &&& 0xFC0007FF#32 = 0x7C0000AF#32 ∧
    (v16 0x60000000).fetch = some 0x60000000#32 ∧ 0x60000000#32 &&& 0xFC000000#32 ≠ 0x88000000#32 ∧
    0x60000000#32 &&& 0xFC000000#32 ≠ 0x8C000000#32 ∧ 0x60000000#32 &&& 0xFC0007FF#32 ≠ 0x7C0000EE#32 ∧
    0x60000000#32 &&& 0xFC0007FF#32 ≠ 0x7C0000AE#32 ∧
    ¬(0x60000000#32 &&& 0xFC0007FF#32 = 0x7C0000EF#32 ∨ 0x60000000#32 &&& 0xFC0007FF#32 = 0x7C0000AF#32) := by decide

/-- At the highest aligned `pc`. -/
theorem witness_FetchIsBigEndianFromText_word :
    (v2 0xFFFFFFFC).pc.toNat % 4 = 0 ∧ (v2 0xFFFFFFFC).textByte 0xFFFFFFFC = some 0x88#8 ∧
    (v2 0xFFFFFFFC).textByte ((v2 0xFFFFFFFC).pc + 1#32) = some 0x64#8 ∧
    (v2 0xFFFFFFFC).textByte ((v2 0xFFFFFFFC).pc + 2#32) = some 0x00#8 ∧
    (v2 0xFFFFFFFC).textByte ((v2 0xFFFFFFFC).pc + 3#32) = some 0x04#8 := by decide
/-- X1 and X2. -/
theorem witness_FetchIsBigEndianFromText_fault :
    ({ v2 0x10000 with pc := 0x10002 } : State).pc.toNat % 4 ≠ 0 ∧
    ({ v2 0x10000 with pc := 0x20000 } : State).textByte 0x20000 = none := by decide
/-- X9's state. -/
theorem witness_FetchIsBigEndianFromText_data :
    (placed 0x10000 0x88640000 [(4, 0x10000)] []).fetch = some 0x88640000#32 ∧
    loadAddress (.lbz 3 4 0#16) (placed 0x10000 0x88640000 [(4, 0x10000)] []) = 0x10000 ∧
    (placed 0x10000 0x88640000 [(4, 0x10000)] []).isShared 0x10000 = false ∧
    ∃ t, exec (.lbz 3 4 0#16) (placed 0x10000 0x88640000 [(4, 0x10000)] []) = .next t :=
  ⟨by decide, by decide, by decide, _, rfl⟩

theorem witness_AssemblyLinesAndInstructionsMatch :
    assemble ⟨"lbzu", [.plain (.r 3), .disp (-32768) (.r 0)]⟩ = some (.lbzu 3 0 0x8000#16) := by decide

theorem witness_StepRunsTheDecodedInstruction :
    (v2 0x10000).pc.toNat % 4 = 0 ∧ (v2 0x10000).textByte (v2 0x10000).pc = some 0x88#8 ∧
    (v2 0x10000).textByte ((v2 0x10000).pc + 1#32) = some 0x64#8 ∧
    (v2 0x10000).textByte ((v2 0x10000).pc + 2#32) = some 0x00#8 ∧
    (v2 0x10000).textByte ((v2 0x10000).pc + 3#32) = some 0x04#8 ∧
    decodeBytes [0x88#8, 0x64#8, 0x00#8, 0x04#8] = .instr (.lbz 3 4 4#16) := by decide

theorem witness_PlacedWordIsTheNextInstruction :
    State.reset.pc.toNat % 4 = 0 ∧ decodeTableWord 32 0x7C6428EE = some (.lbzux 3 4 5) := by decide

/-- The seven outcomes, in R63's order: X2, X5, X6, V15, V11a, X8, X3, V2. -/
theorem witness_StepOutcomeIsTheFirstCheckThatApplies :
    ({ v2 0x10000 with pc := 0x20000 } : State).fetch = none ∧
    ((v16 0x7C6428AF).fetch = some 0x7C6428AF#32 ∧ decode 0x7C6428AF#32 = .reservedEncoding) ∧
    ((v16 0x60000000).fetch = some 0x60000000#32 ∧ decode 0x60000000#32 = .outOfScope) ∧
    (v15.fetch = some 0x8C840001#32 ∧ decode 0x8C840001#32 = .instr (.lbzu 4 4 1#16) ∧
      (Instr.lbzu 4 4 1#16).wellFormed = false ∧ v15.policy = .refuse) ∧
    ((v2 0x10000).fetch = some 0x88640004#32 ∧ decode 0x88640004#32 = .instr (.lbz 3 4 4#16)) ∧
    ({ v2 0x10000 with mem := [] } : State).mappedByte (loadAddress (.lbz 3 4 4#16) (v2 0x10000)) = none ∧
    ({ v2 0x10000 with nonPlain := [0x1004] } : State).isPlain (loadAddress (.lbz 3 4 4#16) (v2 0x10000)) = false ∧
    (v2 0xFFFFFFFC).pc = 0xFFFFFFFC#32 ∧
    (v2 0x10000).mappedByte (loadAddress (.lbz 3 4 4#16) (v2 0x10000)) = some 0x7F#8 := by decide

/-- X1, X3 and V2, the last at the highest `pc` that completes. -/
theorem witness_ProgramCounterIsAlignedAndNeverWraps :
    ({ v2 0x10000 with pc := 0x10002 } : State).pc.toNat % 4 ≠ 0 ∧
    ((v2 0xFFFFFFFC).fetch = some 0x88640004#32 ∧ decode 0x88640004#32 = .instr (.lbz 3 4 4#16) ∧
      formAllowed (.lbz 3 4 4#16) (v2 0xFFFFFFFC) ∧
      (v2 0xFFFFFFFC).mappedByte (loadAddress (.lbz 3 4 4#16) (v2 0xFFFFFFFC)) = some 0x7F#8 ∧
      (v2 0xFFFFFFFC).isPlain (loadAddress (.lbz 3 4 4#16) (v2 0xFFFFFFFC)) = true ∧
      (v2 0xFFFFFFFC).pc = 0xFFFFFFFC#32) ∧
    ∃ t, step (v2 0xFFFFFFF8) = .next t :=
  ⟨by decide, ⟨by decide, by decide, .inl rfl, by decide, by decide, by decide⟩, _, rfl⟩

/-- RA = 4, at the highest `pc` that completes; RA = 0 (V8, r0 not zero); and V11a. -/
theorem witness_LbzLoadsTheByteZeroExtended :
    ((((if (4 : RegNum) = 0 then 0#64 else (v2 0xFFFFFFF8).reg 4) + (4#16 : Disp).signExtend 64).setWidth 32 = 0x1004#32 ∧
      (v2 0xFFFFFFF8).mappedByte 0x1004 = some 0x7F#8 ∧ (v2 0xFFFFFFF8).isPlain 0x1004 = true ∧
      (v2 0xFFFFFFF8).isShared 0x1004 = false ∧ (v2 0xFFFFFFF8).pc ≠ 0xFFFFFFFC#32)) ∧
    ((((if (0 : RegNum) = 0 then 0#64 else 0x1234#64) + (0x4000#16 : Disp).signExtend 64).setWidth 32 = 0x4000#32 ∧
      (placed 0x10000 0x88004000 [(0, 0x1234)] [(0x4000, 0xAB)]).mappedByte 0x4000 = some 0xAB#8)) ∧
    ({ v2 0x10000 with mem := [] } : State).mappedByte 0x1004 = none := by decide

/-- V12a and V13a. -/
theorem witness_LbzuLoadsTheByteAndUpdatesTheBase :
    (4 : RegNum) ≠ 0 ∧ (4 : RegNum) ≠ 3 ∧ (v12a.reg 4 + (1#16 : Disp).signExtend 64).setWidth 32 = 0x1001#32 ∧
    v12a.mappedByte 0x1001 = some 0xC3#8 ∧ v12a.isPlain 0x1001 = true ∧ v12a.isShared 0x1001 = false ∧
    v12a.pc ≠ 0xFFFFFFFC#32 ∧ ({ v12a with mem := [] } : State).mappedByte 0x1001 = none := by decide

/-- V21, and the same with the byte unmapped. -/
theorem witness_LbzuxLoadsTheByteAndUpdatesTheBase :
    (4 : RegNum) ≠ 0 ∧ (4 : RegNum) ≠ 3 ∧
    ((v16 0x7C6428EE).reg 4 + (v16 0x7C6428EE).reg 5).setWidth 32 = 0x1010#32 ∧
    (v16 0x7C6428EE).mappedByte 0x1010 = some 0x99#8 ∧ (v16 0x7C6428EE).isPlain 0x1010 = true ∧
    (v16 0x7C6428EE).isShared 0x1010 = false ∧ (v16 0x7C6428EE).pc ≠ 0xFFFFFFFC#32 ∧
    ({ v16 0x7C6428EE with unmapped := [0x1010] } : State).mappedByte 0x1010 = none := by decide

/-- V16; V17's base 0; and the byte unmapped. -/
theorem witness_LbzxLoadsTheByteZeroExtended :
    ((if (4 : RegNum) = 0 then 0#64 else (v16 0x7C6428AE).reg 4) + (v16 0x7C6428AE).reg 5).setWidth 32 = 0x1010#32 ∧
    (v16 0x7C6428AE).mappedByte 0x1010 = some 0x99#8 ∧ (v16 0x7C6428AE).isPlain 0x1010 = true ∧
    (v16 0x7C6428AE).isShared 0x1010 = false ∧ (v16 0x7C6428AE).pc ≠ 0xFFFFFFFC#32 ∧
    ((if (0 : RegNum) = 0 then 0#64 else 0x9999#64) + 0x4000#64).setWidth 32 = 0x4000#32 ∧
    ({ v16 0x7C6428AE with mem := [] } : State).mappedByte 0x1010 = none := by decide

/-- RA = RT (V15) and RA = 0 (V26), under each policy, mapped and not. -/
theorem witness_InvalidFormsFollowThePolicy :
    ((4 : RegNum) = 4 ∧ (v15.reg 4 + (1#16 : Disp).signExtend 64).setWidth 32 = 0x1001#32 ∧ v15.policy = .refuse) ∧
    ({ v15 with policy := .snapshot } : State).policy = .snapshot ∧
    ({ v15 with policy := .snapshot } : State).mappedByte 0x1001 = some 0xC3#8 ∧
    v15.isPlain 0x1001 = true ∧ v15.isShared 0x1001 = false ∧ v15.pc ≠ 0xFFFFFFFC#32 ∧
    ((placed 0x10000 0x7C6028EE [(0, 0x1000), (5, 1)] []).reg 0 +
      (placed 0x10000 0x7C6028EE [(0, 0x1000), (5, 1)] []).reg 5).setWidth 32 = 0x1001#32 ∧
    ({ v15 with policy := .snapshot, mem := [] } : State).mappedByte 0x1001 = none := by decide

/-- A valid form, and an invalid one under `snapshot`, at a shared address. -/
theorem witness_SharedAddressesGiveDraws :
    formAllowed (.lbzu 3 4 1#16) { v12a with shared := [0x1001] } ∧
    formAllowed (.lbzu 4 4 1#16) { v15 with shared := [0x1001], policy := .snapshot } ∧
    (({ v12a with shared := [0x1001] } : State).mappedByte
      (loadAddress (.lbzu 3 4 1#16) { v12a with shared := [0x1001] })).isSome = true ∧
    ({ v12a with shared := [0x1001] } : State).isPlain 0x1001 = true ∧
    ({ v12a with shared := [0x1001] } : State).isShared 0x1001 = true ∧ v12a.pc ≠ 0xFFFFFFFC#32 ∧
    updateReg (.lbzu 3 4 1#16) ≠ some (destReg (.lbzu 3 4 1#16)) ∧ updateReg (.lbzu 3 4 1#16) = some 4 :=
  ⟨.inl (by decide), .inr rfl, by decide⟩

/-- V2's read, and X8's refusal. -/
theorem witness_PlainReadsHaveNoEffectOthersAreRefused :
    ((v2 0x10000).mappedByte 0x1004 = some 0x7F#8 ∧ (v2 0x10000).isPlain 0x1004 = true ∧
      (v2 0x10000).isShared 0x1004 = false) ∧
    formAllowed (.lbz 3 4 4#16) { v2 0x10000 with nonPlain := [0x1004] } ∧
    ({ v2 0x10000 with nonPlain := [0x1004] } : State).mappedByte 0x1004 = some 0x7F#8 ∧
    loadAddress (.lbz 3 4 4#16) { v2 0x10000 with nonPlain := [0x1004] } = 0x1004 ∧
    ({ v2 0x10000 with nonPlain := [0x1004] } : State).isPlain 0x1004 = false :=
  ⟨by decide, .inl rfl, by decide⟩

/-- V11a and X3: the two faults of a load. -/
theorem witness_ByteLoadsNeverFaultForAlignment :
    exec (.lbz 3 4 4#16) { v2 0x10000 with mem := [] } = .fault (.dataAccessFault 0x1004) ∧
    exec (.lbz 3 4 4#16) (v2 0xFFFFFFFC) = .fault .pcOverflow := ⟨rfl, rfl⟩

theorem witness_LoadedRegisterIsTheByteBelowZeros :
    updateReg (.lbzu 3 4 1#16) ≠ some (destReg (.lbzu 3 4 1#16)) ∧
    v12a.isShared (loadAddress (.lbzu 3 4 1#16) v12a) = false ∧ ∃ t, exec (.lbzu 3 4 1#16) v12a = .next t :=
  ⟨by decide, by decide, _, rfl⟩

/-- A valid form, and RA = RT under `snapshot`. -/
theorem witness_UpdatedBaseIsTheCleanAddress :
    updateReg (.lbzu 3 4 1#16) = some 4 ∧ (∃ t, exec (.lbzu 3 4 1#16) v12a = .next t) ∧
    ∃ t, exec (.lbzu 4 4 1#16) { v15 with policy := .snapshot } = .next t :=
  ⟨rfl, ⟨_, rfl⟩, _, rfl⟩

/-- A completed load, and a register file that differs in a register `lbzu r3, 1(r4)` does not read. -/
theorem witness_OnlyTheTablesRegistersAreReadAndWritten :
    (∃ t, exec (.lbzu 3 4 1#16) v12a = .next t) ∧
    (∀ r ∈ reads (.lbzu 3 4 1#16), (v12a.gpr.set 7 1#64).get r = v12a.reg r) ∧ v12a.gpr.set 7 1#64 ≠ v12a.gpr :=
  ⟨⟨_, rfl⟩, by decide, by decide⟩

theorem witness_StatusAndMemoryAreNeverWritten : ∃ t, exec (.lbzx 3 4 5) (v16 0x7C6428AE) = .next t := ⟨_, rfl⟩

/-- V11's register with a dirty high half against V12a's. -/
theorem witness_HighHalvesNeverMatter :
    (∀ r, ((v12a.gpr.set 4 0xABCDEF0000001000#64).get r).setWidth 32 = (v12a.reg r).setWidth 32) ∧
    v12a.gpr.set 4 0xABCDEF0000001000#64 ≠ v12a.gpr := by decide

/-- A state that meets the invariant and the launch premises, and steps. -/
theorem v2_inv : (v2 0x10000).Inv := by constructor <;> decide
theorem witness_StepKeepsTheInvariant : (v2 0x10000).Inv ∧ ∃ t, step (v2 0x10000) = .next t := ⟨v2_inv, _, rfl⟩
theorem witness_LaunchedStatesFetchAtTheirEntry : (v2 0x10000).launchOk 0x10000 := ⟨v2_inv, by decide, by decide⟩

/-- Runs of one step, of none, and of one that does not complete. -/
theorem witness_RunsChangeOnlyRegistersAndPc : ∃ t, Sys2Proof.core.run 1 (v2 0x10000) = .next t := ⟨_, rfl⟩
theorem witness_RunsAdvancePcByFourEach : ∃ t, Sys2Proof.core.run 1 (v2 0xFFFFFFF8) = .next t := ⟨_, rfl⟩
theorem witness_NoRunGoesOnForever : 2 ^ 30 ≤ 2 ^ 30 := le_refl _
theorem witness_RunsEndInExactlyTheDistance :
    ((v2 0x10000).pc.toNat + 4 * 1 = (0x10004#32 : Addr).toNat ∧ ∃ t, Sys2Proof.core.run 1 (v2 0x10000) = .next t) ∧
    (v2 0x10000).pc = 0x10000#32 ∧ ∃ t, run 0x10004#32 1 (v2 0x10000) = .ended t :=
  ⟨⟨by decide, _, rfl⟩, by decide, _, rfl⟩
/-- V11a's fault and V15's refusal as ends of runs. -/
theorem witness_AbnormalEndsKeepTheStateBefore :
    (∃ t, run 0x10008#32 1 { v2 0x10000 with mem := (v2 0x10000).mem.drop 1 } = .faulted (.dataAccessFault 0x1004) t) ∧
    ∃ t, run 0x10008#32 1 v15 = .refused (.invalidForm 0x8C840001) t := ⟨⟨_, rfl⟩, _, rfl⟩

end Sys2Proof.Tests
end

/-! # Proofs: the program counter, and which registers an instruction reads and writes

The outcome of `exec` and of `step` from the state, one lemma per check of R63, then R14, R12 and R18. -/

namespace Sys2Proof.Machine

/-! ## The outcome of `exec`, check by check (R63) -/

theorem exec_of_unmapped {i : Instr} {s : State} (ha : formAllowed i s)
    (hm : s.mappedByte (loadAddress i s) = none) :
    exec i s = .fault (.dataAccessFault (loadAddress i s)) := by
  simp [exec_of_allowed ha, State.loadByteZero, State.memRead_unmapped hm, raise]

theorem exec_of_nonPlain {i : Instr} {s : State} {b : Byte} (ha : formAllowed i s)
    (hm : s.mappedByte (loadAddress i s) = some b) (hp : s.isPlain (loadAddress i s) = false) :
    exec i s = .refused (.nonPlainRead (loadAddress i s)) := by
  simp [exec_of_allowed ha, State.loadByteZero, State.memRead_nonPlain hm hp, refuse]

/-- A mapped and plain address gives a byte, loaded or drawn. -/
theorem State.memRead_of_plain {s : State} {a : Addr} {b : Byte} (hm : s.mappedByte a = some b)
    (hp : s.isPlain a = true) : ∃ b' s', s.memRead a = .byte b' s' := by
  cases hs : s.isShared a with
  | false => exact ⟨_, _, State.memRead_plain hm hp hs⟩
  | true => exact ⟨_, _, State.memRead_shared hm hp hs⟩

theorem exec_of_topPc {i : Instr} {s : State} {b : Byte} (ha : formAllowed i s)
    (hm : s.mappedByte (loadAddress i s) = some b) (hp : s.isPlain (loadAddress i s) = true)
    (hpc : s.pc = topPc) : exec i s = .fault .pcOverflow := by
  obtain ⟨b', s', hr⟩ := State.memRead_of_plain hm hp
  simp [exec_of_allowed ha, State.loadByteZero, hr, hpc, raise]

/-! ## The outcome of `step` -/

theorem State.fetch_of_misaligned {s : State} (h : s.pc.toNat % 4 ≠ 0) : s.fetch = none := by
  simp [State.fetch, h]

theorem step_of_fetch_none {s : State} (h : s.fetch = none) : step s = .fault (.fetchFault s.pc) := by
  simp [step, h, raise]

theorem step_of_decode {s : State} {w : InstrWord} {i : Instr} (hf : s.fetch = some w)
    (hd : decode w = .instr i) : step s = exec i s := by
  simp [step, hf, hd]

/-! ## What a completed instruction does to `pc` and leaves unchanged -/

theorem exec_next_pc {i : Instr} {s t : State} (h : exec i s = .next t) : t.pc = s.pc + 4#32 := by
  obtain ⟨-, -, -, b, s', hr, rfl⟩ := exec_next h
  rw [State.loaded_pc, State.memRead_byte_state hr]

theorem exec_next_unchangedExcept {i : Instr} {s t : State} (h : exec i s = .next t) :
    s.unchangedExcept t (writes i) := by
  obtain ⟨-, -, -, b, s', hr, rfl⟩ := exec_next h
  rw [writes_eq]
  exact State.loaded_unchangedExcept (State.memRead_byte_state hr) _ _ _ _

/-- An aligned address below the top word has room for one more word (R14). -/
theorem toNat_add_four {a : Addr} (halign : a.toNat % 4 = 0) (htop : a ≠ topPc) :
    (a + 4#32).toNat = a.toNat + 4 := by
  unfold topPc at htop
  bv_omega

theorem step_next_pc_toNat {s t : State} (h : step s = .next t) : t.pc.toNat = s.pc.toNat + 4 := by
  obtain ⟨w, i, hf, -, he⟩ := step_next h
  obtain ⟨halign, -⟩ := State.fetch_eq_some.mp hf
  obtain ⟨-, -, htop, -⟩ := exec_next he
  rw [exec_next_pc he, toNat_add_four halign htop]

/-- Settles O13. A misaligned `pc` fails the fetch; at the top the load stops at its last check; and a completed
step was aligned and not at the top, so adding 4 does not wrap. -/
theorem programCounterIsAlignedAndNeverWraps : Obligations.ProgramCounterIsAlignedAndNeverWraps := by
  refine ⟨fun s hmis => ?_, fun s w i b hf hd ha hm hp hpc => ?_, fun s t h => step_next_pc_toNat h⟩
  · exact step_of_fetch_none (State.fetch_of_misaligned hmis)
  · rw [step_of_decode hf hd, exec_of_topPc ha hm hp hpc]

/-! ## Which registers an instruction reads -/

/-- An instruction's address is a function of the registers of R12's column "reads". -/
theorem loadAddress_eq_of_reads {i : Instr} {s s' : State} (h : ∀ r ∈ reads i, s'.reg r = s.reg r) :
    loadAddress i s' = loadAddress i s := by
  cases i with
  | lbz rt ra d => by_cases h0 : ra = 0 <;> simp_all [reads, loadAddress, State.ra0val]
  | lbzu rt ra d => simp_all [reads, loadAddress]
  | lbzux rt ra rb => simp_all [reads, loadAddress]
  | lbzx rt ra rb => by_cases h0 : ra = 0 <;> simp_all [reads, loadAddress, State.ra0val]

/-- The same memory, parameters and `pc` with other contents in every register and in the status state. -/
def State.withRegisters (s : State) (g : Vector Word 32) (c : StatusState) : State :=
  { s with gpr := g, cr := c.cr, xer := c.xer, fpr := c.fpr, vr := c.vr }

theorem State.withRegisters_status (s : State) (g : Vector Word 32) :
    s.withRegisters g s.status = { s with gpr := g } := rfl

@[simp] theorem State.withRegisters_pc (s : State) (g : Vector Word 32) (c : StatusState) :
    (s.withRegisters g c).pc = s.pc := rfl

/-- A read gives the same byte whatever the registers hold. -/
theorem State.memRead_withRegisters {s s' : State} {a : Addr} {b : Byte} (g : Vector Word 32) (c : StatusState)
    (h : s.memRead a = .byte b s') : (s.withRegisters g c).memRead a = .byte b (s'.withRegisters g c) := by
  rcases s.memRead_cases a with ⟨-, hr⟩ | ⟨_, -, -, hr⟩ | ⟨_, hm, hp, hs, hr⟩ | ⟨_, hm, hp, hs, hr⟩ <;>
    rw [h] at hr <;> cases hr
  · exact State.memRead_plain hm hp hs
  · exact State.memRead_shared hm hp hs

/-! ## Answering alike -/

theorem answersAlike_of_fault {i : Instr} {s s' : State} {f : Fault} (h : exec i s = .fault f)
    (h' : exec i s' = .fault f) : answersAlike i s s' := by
  simp [answersAlike, h, h']

theorem answersAlike_of_refused {i : Instr} {s s' : State} {q : Refusal} (h : exec i s = .refused q)
    (h' : exec i s' = .refused q) : answersAlike i s s' := by
  simp [answersAlike, h, h']

theorem answersAlike_of_next {i : Instr} {s s' t t' : State} (h : exec i s = .next t)
    (h' : exec i s' = .next t') (hreg : ∀ r ∈ writes i, t'.reg r = t.reg r) (hpc : t'.pc = t.pc) :
    answersAlike i s s' := by
  refine ⟨by simp [h, h'], by simp [h, h'], fun u hu => ⟨t', h', ?_⟩⟩
  obtain rfl : t = u := by simpa [h] using hu
  exact ⟨hreg, hpc⟩

/-- A written register after a load holds the address or the byte, nothing of the state before. -/
theorem State.loaded_reg_of_written {s s' : State} {i : Instr} {ea : Addr} {b : Byte} {r : RegNum}
    (hr : r ∈ writes i) : (s'.loaded (destReg i) (updateReg i) ea b).reg r =
      (s.loaded (destReg i) (updateReg i) ea b).reg r := by
  rw [State.loaded_reg, State.loaded_reg]
  simp only [writes_eq, List.mem_cons, Option.mem_toList] at hr
  rcases hr with hdest | hupd
  · simp [hdest]
  · simp [hupd]

/-- The registers and the status state reach an instruction's answer only through its address. -/
theorem answersAlike_withRegisters {i : Instr} {s : State} {g : Vector Word 32} {c : StatusState}
    (hea : loadAddress i (s.withRegisters g c) = loadAddress i s) :
    answersAlike i s (s.withRegisters g c) := by
  by_cases ha : formAllowed i s
  case neg => exact answersAlike_of_refused (exec_of_not_allowed ha) (exec_of_not_allowed ha)
  have ha' : formAllowed i (s.withRegisters g c) := ha
  cases hm : s.mappedByte (loadAddress i s) with
  | none =>
    refine answersAlike_of_fault (exec_of_unmapped ha hm) ?_
    rw [← hea] at hm ⊢
    exact exec_of_unmapped ha' hm
  | some b =>
    cases hp : s.isPlain (loadAddress i s) with
    | false =>
      refine answersAlike_of_refused (exec_of_nonPlain ha hm hp) ?_
      rw [← hea] at hm hp ⊢
      exact exec_of_nonPlain ha' hm hp
    | true =>
      by_cases hpc : s.pc = topPc
      · refine answersAlike_of_fault (exec_of_topPc ha hm hp hpc) ?_
        rw [← hea] at hm hp
        exact exec_of_topPc ha' hm hp hpc
      · obtain ⟨b', s', hr⟩ := State.memRead_of_plain hm hp
        have hr' := hea ▸ State.memRead_withRegisters g c hr
        refine answersAlike_of_next (exec_completes ha hr hpc) (exec_completes ha' hr' hpc)
          (fun r hw => ?_) (by simp)
        rw [hea]
        exact State.loaded_reg_of_written hw

/-- Settles O24. The frame and `pc` are those of the shared load; the registers reach the answer through the
address alone, which the registers of the reads column fix. -/
theorem onlyTheTablesRegistersAreReadAndWritten : Obligations.OnlyTheTablesRegistersAreReadAndWritten := by
  refine ⟨fun i s t h => ⟨exec_next_pc h, exec_next_unchangedExcept h⟩, fun i s g hreads => ?_⟩
  rw [← State.withRegisters_status]
  exact answersAlike_withRegisters (loadAddress_eq_of_reads hreads)

end Sys2Proof.Machine

/-! # Proofs: instruction fetch, data access and the effective address

What a fetched word says of the text, the faults and refusals of a load, and the address as a sum modulo 2^32
(R21, R25, R26, R29). -/

namespace Sys2Proof.Machine

/-! ## Text and data are one memory -/

theorem State.read_of_textByte {s : State} {a : Addr} {b : Byte} (h : s.textByte a = some b) :
    s.mem.read a.toNat = some b := by
  unfold State.textByte at h
  split_ifs at h
  exact h

theorem State.read_of_mappedByte {s : State} {a : Addr} {b : Byte} (h : s.mappedByte a = some b) :
    s.mem.read a.toNat = some b := by
  unfold State.mappedByte at h
  split_ifs at h
  exact h

/-- At an address that is text and mapped, fetch and load see one byte (R71). -/
theorem State.textByte_eq_mappedByte {s : State} {a : Addr} {b b' : Byte} (ht : s.textByte a = some b)
    (hm : s.mappedByte a = some b') : b = b' :=
  Option.some.inj ((State.read_of_textByte ht).symm.trans (State.read_of_mappedByte hm))

/-! ## The bytes of a fetched word (R25) -/

/-- Byte `k` of a word in memory order is its bits `8 * k` to `8 * k + 7`, counted from the most significant. -/
theorem extractLsb'_wordOfBytes (b0 b1 b2 b3 : Byte) :
    (wordOfBytes b0 b1 b2 b3).extractLsb' 24 8 = b0 ∧ (wordOfBytes b0 b1 b2 b3).extractLsb' 16 8 = b1 ∧
    (wordOfBytes b0 b1 b2 b3).extractLsb' 8 8 = b2 ∧ (wordOfBytes b0 b1 b2 b3).extractLsb' 0 8 = b3 := by
  refine ⟨?_, ?_, ?_, ?_⟩ <;> apply BitVec.eq_of_toNat_eq <;>
    simp only [wordOfBytes, toNat_append_eq, BitVec.extractLsb'_toNat, Nat.shiftRight_eq_div_pow] <;> omega

/-- A fetched word's byte `k`, the first the most significant, is the text byte `k` above `pc`. -/
theorem State.textByte_of_fetch {s : State} {w : InstrWord} (h : s.fetch = some w) {k : Nat} (hk : k < 4) :
    s.textByte (s.pc + BitVec.ofNat 32 k) = some (w.extractLsb' (24 - 8 * k) 8) := by
  obtain ⟨-, b0, b1, b2, b3, h0, h1, h2, h3, rfl⟩ := State.fetch_eq_some.mp h
  obtain ⟨e0, e1, e2, e3⟩ := extractLsb'_wordOfBytes b0 b1 b2 b3
  interval_cases k
  · simpa [e0] using h0
  · simpa [e1] using h1
  · simpa [e2] using h2
  · simpa [e3] using h3

theorem State.fetch_of_absent {s : State} {k : Nat} (hk : k < 4)
    (h : s.textByte (s.pc + BitVec.ofNat 32 k) = none) : s.fetch = none := by
  cases hf : s.fetch with
  | none => rfl
  | some w => simp [State.textByte_of_fetch hf hk] at h

/-! ## What a completed load leaves in its destination -/

/-- From an unshared address the destination receives the mapped byte, where the address does not overwrite it. -/
theorem exec_next_destReg {i : Instr} {s t : State} (h : exec i s = .next t)
    (hupd : updateReg i ≠ some (destReg i)) (hs : s.isShared (loadAddress i s) = false) :
    ∃ b, s.mappedByte (loadAddress i s) = some b ∧ t.reg (destReg i) = b.setWidth 64 := by
  obtain ⟨-, -, -, b, s', hr, rfl⟩ := exec_next h
  exact ⟨b, (State.mappedByte_of_memRead hr).2 hs, by simp [State.loaded_reg, hupd]⟩

/-- Settles O9. A fetched word is its four text bytes, so an absent one fails the fetch; and since text and data are
one memory, a load from `pc` reads the word's first byte. -/
theorem fetchIsBigEndianFromText : Obligations.FetchIsBigEndianFromText := by
  refine ⟨fun s b0 b1 b2 b3 halign h0 h1 h2 h3 => ?_, fun s hbad => step_of_fetch_none ?_,
    fun s t w rt ra d hf hea hs h => ?_⟩
  · exact State.fetch_eq_some.mpr ⟨halign, b0, b1, b2, b3, h0, h1, h2, h3, rfl⟩
  · rcases hbad with hmis | ⟨k, hk, habsent⟩
    · exact State.fetch_of_misaligned hmis
    · exact State.fetch_of_absent hk habsent
  · obtain ⟨b, hm, hreg⟩ := exec_next_destReg h nofun (hea ▸ hs)
    have htext : s.textByte s.pc = some (w.extractLsb' 24 8) := by
      simpa using State.textByte_of_fetch hf (k := 0) (by decide)
    rw [State.textByte_eq_mappedByte htext (hea ▸ hm)]
    exact hreg

/-! ## The faults of an instruction (R22, R14) -/

/-- Everything that makes `exec` fault: the byte is not mapped, or `pc` cannot advance. -/
theorem exec_fault {i : Instr} {s : State} {f : Fault} (h : exec i s = .fault f) :
    (f = .dataAccessFault (loadAddress i s) ∧ s.mappedByte (loadAddress i s) = none) ∨
      (f = .pcOverflow ∧ s.pc = topPc) := by
  by_cases ha : formAllowed i s
  case neg => rw [exec_of_not_allowed ha] at h; cases h
  rw [exec_of_allowed ha] at h
  rcases s.loadByteZero_cases (destReg i) (updateReg i) (loadAddress i s) with
    ⟨hm, hr⟩ | ⟨-, -, hr⟩ | ⟨-, -, hpc, hr⟩ | ⟨b, s', -, -, -, -, hr⟩ <;> rw [hr] at h <;> cases h
  · exact .inl ⟨rfl, hm⟩
  · exact .inr ⟨rfl, hpc⟩

/-- Settles O21. The checks of a load ask whether its address is mapped and plain and where `pc` is; none asks for
an alignment. -/
theorem byteLoadsNeverFaultForAlignment : Obligations.ByteLoadsNeverFaultForAlignment :=
  fun _ _ _ h => exec_fault h

/-! ## The effective address modulo 2^32 (R21) -/

theorem effectiveAddress_toNat (base offset : Word) :
    (effectiveAddress base offset).toNat = (base.toNat + offset.toNat) % 2 ^ 32 := by
  rw [effectiveAddress, BitVec.toNat_setWidth, BitVec.toNat_add]
  omega

/-- The sum's low half is the sum of the low halves. -/
theorem effectiveAddress_eq_add (base offset : Word) :
    effectiveAddress base offset = base.setWidth 32 + offset.setWidth 32 :=
  BitVec.setWidth_add base offset (by decide)

/-- An instruction's address depends on the low halves of the registers alone. -/
theorem loadAddress_eq_of_low_halves {i : Instr} {s s' : State}
    (h : ∀ r, (s'.reg r).setWidth 32 = (s.reg r).setWidth 32) : loadAddress i s' = loadAddress i s := by
  have hra0 (ra : RegNum) : (s'.ra0val ra).setWidth 32 = (s.ra0val ra).setWidth 32 := by
    unfold State.ra0val
    split_ifs
    · rfl
    · exact h ra
  cases i with
  | lbz rt ra d => simp only [loadAddress, effectiveAddress_eq_add, hra0]
  | lbzu rt ra d => simp only [loadAddress, effectiveAddress_eq_add, h]
  | lbzux rt ra rb => simp only [loadAddress, effectiveAddress_eq_add, h]
  | lbzx rt ra rb => simp only [loadAddress, effectiveAddress_eq_add, hra0, h]

/-- Settles O26. The address is fixed by the low halves, and the registers reach the answer through it alone. -/
theorem highHalvesNeverMatter : Obligations.HighHalvesNeverMatter := by
  refine ⟨effectiveAddress_toNat, fun i s g hlow => ?_⟩
  rw [← State.withRegisters_status]
  exact answersAlike_withRegisters (loadAddress_eq_of_low_halves hlow)

/-! ## Plain and non-plain addresses (R29) -/

@[simp] theorem State.reset_isPlain (a : Addr) : State.reset.isPlain a = true := rfl

/-- Settles O20. The read's plain case, the load's non-plain case, and the empty set after reset. -/
theorem plainReadsHaveNoEffectOthersAreRefused : Obligations.PlainReadsHaveNoEffectOthersAreRefused :=
  ⟨fun _ _ _ hm hp hs => State.memRead_plain hm hp hs, fun _ _ _ ha hm hp => exec_of_nonPlain ha hm hp,
    State.reset_isPlain⟩

end Sys2Proof.Machine

/-! # Proofs: fields, masks and what a word decodes to

The fields as shifts and masks and a word put together from its own fields (R38), the mask tests of R42 as conditions
on the opcode fields, then decoding row by row, with the words that fit no row (R43, R45). -/

namespace Sys2Proof

/-! ## Fields by shift and mask, words by shift and or (R38) -/

theorem div_mod_two_pow_eq_shift_and_mask (x k n : Nat) : x / 2 ^ k % 2 ^ n = (x >>> k) &&& (2 ^ n - 1) := by
  rw [Nat.and_two_pow_sub_one_eq_mod, Nat.shiftRight_eq_div_pow]

theorem encodeD_toNat_eq_or (o : BitVec 6) (rt ra : RegNum) (d : Disp) : (encodeD o rt ra d).toNat =
    (o.toNat <<< 26) ||| (rt.val <<< 21) ||| (ra.val <<< 16) ||| (d.toNat &&& 0xFFFF) := by
  have hd : d.toNat &&& 0xFFFF = d.toNat := Nat.and_two_pow_sub_one_of_lt_two_pow (n := 16) d.isLt
  simp only [hd, encodeD, BitVec.toNat_append, regBits_toNat, Nat.shiftLeft_or_distrib, ← Nat.shiftLeft_add]

theorem encodeX_toNat_eq_or (xo : BitVec 10) (rc : BitVec 1) (rt ra rb : RegNum) :
    (encodeX xo rc rt ra rb).toNat = (31 <<< 26) ||| (rt.val <<< 21) ||| (ra.val <<< 16) |||
      (rb.val <<< 11) ||| (xo.toNat <<< 1) ||| rc.toNat := by
  have h31 : (31#6).toNat = 31 := rfl
  simp only [h31, encodeX, BitVec.toNat_append, regBits_toNat, Nat.shiftLeft_or_distrib, ← Nat.shiftLeft_add]

/-- Settles O4. A field is a quotient's remainder by powers of two, which is a shift and a mask; appending fields is
shifting and or-ing them. -/
theorem fieldsAreShiftsAndMasks : Obligations.FieldsAreShiftsAndMasks := by
  refine ⟨fun w => ⟨?_, ?_, ?_, ?_, ?_, ?_, ?_⟩, encodeD_toNat_eq_or, encodeX_toNat_eq_or, rfl, rfl, rfl, rfl⟩
  · exact (opcdField_toNat w).trans (div_mod_two_pow_eq_shift_and_mask _ 26 6)
  · exact (rtField_val w).trans (div_mod_two_pow_eq_shift_and_mask _ 21 5)
  · exact (raField_val w).trans (div_mod_two_pow_eq_shift_and_mask _ 16 5)
  · exact (rbField_val w).trans (div_mod_two_pow_eq_shift_and_mask _ 11 5)
  · exact (xoField_toNat w).trans (div_mod_two_pow_eq_shift_and_mask _ 1 10)
  · exact (rcField_toNat w).trans (Nat.and_one_is_mod _).symm
  · exact (dField_toNat w).trans (Nat.and_two_pow_sub_one_eq_mod _ 16).symm

/-! ## A word from its own fields -/

theorem encodeD_fields (w : InstrWord) : encodeD (opcdField w) (rtField w) (raField w) (dField w) = w := by
  apply BitVec.eq_of_toNat_eq
  rw [encodeD_toNat, opcdField_toNat, rtField_val, raField_val, dField_toNat]
  omega

theorem encodeX_fields {w : InstrWord} (h : opcdField w = 31#6) :
    encodeX (xoField w) (rcField w) (rtField w) (raField w) (rbField w) = w := by
  have ho : w.toNat / 2 ^ 26 % 2 ^ 6 = 31 := by rw [← opcdField_toNat, h]; rfl
  apply BitVec.eq_of_toNat_eq
  rw [encodeX_toNat, xoField_toNat, rcField_toNat, rtField_val, raField_val, rbField_val]
  omega

/-- Decoding keeps every bit of the word: the instruction's own word is the word it came from. -/
theorem encode_of_decode {w : InstrWord} {i : Instr} (h : decode w = .instr i) : encode i = w := by
  rcases decode_instr_cases h with ⟨ho, rfl⟩ | ⟨ho, rfl⟩ | ⟨ho, hx, hr, rfl⟩ | ⟨ho, hx, hr, rfl⟩
  · rw [encode, ← ho, encodeD_fields]
  · rw [encode, ← ho, encodeD_fields]
  · rw [encode, ← hx, ← hr, encodeX_fields ho]
  · rw [encode, ← hx, ← hr, encodeX_fields ho]

/-! ## The mask tests of R42 as conditions on the fields -/

/-- A D-form row tests the primary opcode. -/
theorem and_maskD_eq_iff (w : InstrWord) (o : BitVec 6) :
    w &&& 0xFC000000#32 = o ++ 0#26 ↔ opcdField w = o := by
  rw [← BitVec.toNat_inj, ← BitVec.toNat_inj, and_maskD_toNat, opcdField_toNat, toNat_append_eq]
  have h0 : (0#26).toNat = 0 := rfl
  omega

/-- An X-form row tests the primary opcode, the extended opcode and bit 31. -/
theorem and_maskX_eq_iff (w : InstrWord) (o : BitVec 6) (xo : BitVec 10) (rc : BitVec 1) :
    w &&& 0xFC0007FF#32 = o ++ 0#15 ++ xo ++ rc ↔ opcdField w = o ∧ xoField w = xo ∧ rcField w = rc := by
  simp only [← BitVec.toNat_inj, and_maskX_toNat, opcdField_toNat, xoField_toNat, rcField_toNat, toNat_append_eq]
  have h0 : (0#15).toNat = 0 := rfl
  omega

theorem fits_lbz_iff {w : InstrWord} : w &&& 0xFC000000#32 = 0x88000000#32 ↔ opcdField w = 34#6 :=
  and_maskD_eq_iff w 34#6

theorem fits_lbzu_iff {w : InstrWord} : w &&& 0xFC000000#32 = 0x8C000000#32 ↔ opcdField w = 35#6 :=
  and_maskD_eq_iff w 35#6

theorem fits_lbzux_iff {w : InstrWord} : w &&& 0xFC0007FF#32 = 0x7C0000EE#32 ↔
    opcdField w = 31#6 ∧ xoField w = 119#10 ∧ rcField w = 0#1 :=
  and_maskX_eq_iff w 31#6 119#10 0#1

theorem fits_lbzx_iff {w : InstrWord} : w &&& 0xFC0007FF#32 = 0x7C0000AE#32 ↔
    opcdField w = 31#6 ∧ xoField w = 87#10 ∧ rcField w = 0#1 :=
  and_maskX_eq_iff w 31#6 87#10 0#1

/-- The match words of `lbzux` and `lbzx` with bit 31 set (R43). -/
theorem fits_recordBit_iff {w : InstrWord} :
    w &&& 0xFC0007FF#32 = 0x7C0000EF#32 ∨ w &&& 0xFC0007FF#32 = 0x7C0000AF#32 ↔
      opcdField w = 31#6 ∧ (xoField w = 119#10 ∨ xoField w = 87#10) ∧ rcField w = 1#1 := by
  have hux := and_maskX_eq_iff w 31#6 119#10 1#1
  have hx := and_maskX_eq_iff w 31#6 87#10 1#1
  refine (or_congr hux hx).trans ?_
  tauto

/-! ## What a word decodes to -/

theorem decode_of_fits_lbz {w : InstrWord} (h : w &&& 0xFC000000#32 = 0x88000000#32) :
    decode w = .instr (.lbz (rtField w) (raField w) (dField w)) := by
  simp [decode, fits_lbz_iff.mp h]

theorem decode_of_fits_lbzu {w : InstrWord} (h : w &&& 0xFC000000#32 = 0x8C000000#32) :
    decode w = .instr (.lbzu (rtField w) (raField w) (dField w)) := by
  simp [decode, fits_lbzu_iff.mp h]

theorem decode_of_fits_lbzux {w : InstrWord} (h : w &&& 0xFC0007FF#32 = 0x7C0000EE#32) :
    decode w = .instr (.lbzux (rtField w) (raField w) (rbField w)) := by
  obtain ⟨ho, hx, hr⟩ := fits_lbzux_iff.mp h
  simp [decode, decodeX, ho, hx, hr]

theorem decode_of_fits_lbzx {w : InstrWord} (h : w &&& 0xFC0007FF#32 = 0x7C0000AE#32) :
    decode w = .instr (.lbzx (rtField w) (raField w) (rbField w)) := by
  obtain ⟨ho, hx, hr⟩ := fits_lbzx_iff.mp h
  simp [decode, decodeX, ho, hx, hr]

/-- Exactly the words of R43 are reserved. -/
theorem decode_eq_reservedEncoding_iff {w : InstrWord} : decode w = .reservedEncoding ↔
    opcdField w = 31#6 ∧ (xoField w = 119#10 ∨ xoField w = 87#10) ∧ rcField w = 1#1 := by
  constructor
  · intro h
    unfold decode decodeX at h
    have hrc := BitVec.eq_zero_or_eq_one (rcField w)
    split_ifs at h <;> simp_all
  · rintro ⟨ho, hx | hx, hr⟩ <;> simp [decode, decodeX, ho, hx, hr]

/-- The decoder is total (R45). -/
theorem decode_total (w : InstrWord) :
    (∃ i, decode w = .instr i) ∨ decode w = .reservedEncoding ∨ decode w = .outOfScope := by
  cases h : decode w with
  | instr i => exact .inl ⟨i, rfl⟩
  | reservedEncoding => exact .inr (.inl rfl)
  | outOfScope => exact .inr (.inr rfl)
  | truncated => exact absurd h (decode_ne_truncated w)

/-- A word that fits no row is no instruction, since an instruction's own word fits its row. -/
theorem decode_of_fits_none {w : InstrWord} (hlbz : w &&& 0xFC000000#32 ≠ 0x88000000#32)
    (hlbzu : w &&& 0xFC000000#32 ≠ 0x8C000000#32) (hlbzux : w &&& 0xFC0007FF#32 ≠ 0x7C0000EE#32)
    (hlbzx : w &&& 0xFC0007FF#32 ≠ 0x7C0000AE#32) :
    decode w = .reservedEncoding ∨ decode w = .outOfScope := by
  refine (decode_total w).resolve_left ?_
  rintro ⟨i, hi⟩
  obtain rfl := encode_of_decode hi
  cases i with
  | lbz rt ra d => exact hlbz (Laws.TableRow.lbz rt ra d)
  | lbzu rt ra d => exact hlbzu (Laws.TableRow.lbzu rt ra d)
  | lbzux rt ra rb => exact hlbzux (Laws.TableRow.lbzux rt ra rb)
  | lbzx rt ra rb => exact hlbzx (Laws.TableRow.lbzx rt ra rb)

end Sys2Proof

namespace Sys2Proof.Machine

/-! ## The mask table and the invalid forms after it (R42, R44) -/

theorem invalidUpdateForm_of_or {rt ra : RegNum} (h : ra = 0 ∨ ra = rt) : invalidUpdateForm rt ra = true := by
  simpa [invalidUpdateForm] using h

/-- Under policy `refuse` an ill-formed instruction is refused with the word it was decoded from. -/
theorem exec_of_decode_of_not_wellFormed {w : InstrWord} {i : Instr} {s : State} (hd : decode w = .instr i)
    (hi : i.wellFormed = false) (hp : s.policy = .refuse) : exec i s = .refused (.invalidForm w) := by
  rw [exec_of_not_allowed ((not_formAllowed_iff i s).mpr ⟨hi, hp⟩), encode_of_decode hd]

/-- Settles O5. Each row's mask test is the decoder's test of the opcode fields; a word that fits an update row
decodes to that update form, so RA = 0 or RA = RT makes it an invalid form, refused with the word itself. -/
theorem decodingFollowsTheMaskTable : Obligations.DecodingFollowsTheMaskTable := by
  refine ⟨fun w => ⟨decode_of_fits_lbz, decode_of_fits_lbzu, decode_of_fits_lbzux, decode_of_fits_lbzx,
    decode_of_fits_none⟩, fun w s i hd hrow hinv hp => exec_of_decode_of_not_wellFormed hd ?_ hp⟩
  rcases hrow with h | h
  · cases hd.symm.trans (decode_of_fits_lbzu h)
    simp [wellFormed_lbzu, invalidUpdateForm_of_or hinv]
  · cases hd.symm.trans (decode_of_fits_lbzux h)
    simp [wellFormed_lbzux, invalidUpdateForm_of_or hinv]

/-! ## Steps at words that are no instruction (R43, R45) -/

theorem step_of_reservedEncoding {s : State} {w : InstrWord} (hf : s.fetch = some w)
    (hd : decode w = .reservedEncoding) : step s = .refused (.reservedEncoding w) := by
  simp [step, hf, hd, refuse]

theorem step_of_outOfScope {s : State} {w : InstrWord} (hf : s.fetch = some w)
    (hd : decode w = .outOfScope) : step s = .refused (.outOfScope w) := by
  simp [step, hf, hd, refuse]

/-- Settles O6. The three numbers are the word's opcode fields (O4), and those values are the reserved ones. -/
theorem recordBitWordsAreReserved : Obligations.RecordBitWordsAreReserved := by
  intro w hop hxo hrc
  obtain ⟨hfields, -⟩ := fieldsAreShiftsAndMasks
  obtain ⟨eop, -, -, -, exo, erc, -⟩ := hfields w
  have hd : decode w = .reservedEncoding := by
    rw [decode_eq_reservedEncoding_iff]
    simp only [← BitVec.toNat_inj, eop, exo, erc, hop, hrc]
    exact ⟨rfl, hxo.symm, rfl⟩
  exact ⟨hd, fun s hf => step_of_reservedEncoding hf hd⟩

/-- Settles O7. A word that fits no row is reserved or out of scope, and it is reserved exactly when it fits one of
the two match words with bit 31 set. -/
theorem unmatchedWordsAreRefused : Obligations.UnmatchedWordsAreRefused := by
  refine ⟨fun w s hf hlbz hlbzu hlbzux hlbzx => ?_, decode_total⟩
  have hnone := decode_of_fits_none hlbz hlbzu hlbzux hlbzx
  have hreserved := fits_recordBit_iff.trans (decode_eq_reservedEncoding_iff (w := w)).symm
  split_ifs with hbit
  · exact step_of_reservedEncoding hf (hreserved.mp hbit)
  · exact step_of_outOfScope hf (hnone.resolve_left (mt hreserved.mpr hbit))

end Sys2Proof.Machine

/-! # Proofs: what each load does

Decoding of an instruction's own word (R36, R37, R41), then what a load that completes leaves behind, said once for
all four instructions, and the rule of each (R51 to R57). -/

namespace Sys2Proof

/-! ## The fields of an encoded word -/

@[simp] theorem rtField_encodeD (o : BitVec 6) (rt ra : RegNum) (d : Disp) : rtField (encodeD o rt ra d) = rt := by
  apply Fin.ext
  rw [rtField_val, encodeD_toNat]
  omega

@[simp] theorem raField_encodeD (o : BitVec 6) (rt ra : RegNum) (d : Disp) : raField (encodeD o rt ra d) = ra := by
  apply Fin.ext
  rw [raField_val, encodeD_toNat]
  omega

@[simp] theorem dField_encodeD (o : BitVec 6) (rt ra : RegNum) (d : Disp) : dField (encodeD o rt ra d) = d := by
  apply BitVec.eq_of_toNat_eq
  rw [dField_toNat, encodeD_toNat]
  omega

@[simp] theorem rtField_encodeX (xo : BitVec 10) (rc : BitVec 1) (rt ra rb : RegNum) :
    rtField (encodeX xo rc rt ra rb) = rt := by
  apply Fin.ext
  rw [rtField_val, encodeX_toNat]
  omega

@[simp] theorem raField_encodeX (xo : BitVec 10) (rc : BitVec 1) (rt ra rb : RegNum) :
    raField (encodeX xo rc rt ra rb) = ra := by
  apply Fin.ext
  rw [raField_val, encodeX_toNat]
  omega

@[simp] theorem rbField_encodeX (xo : BitVec 10) (rc : BitVec 1) (rt ra rb : RegNum) :
    rbField (encodeX xo rc rt ra rb) = rb := by
  apply Fin.ext
  rw [rbField_val, encodeX_toNat]
  omega

/-- An instruction's own word fits its row of R42, and the row's fields are the operands. -/
theorem decode_encode (i : Instr) : decode (encode i) = .instr i := by
  cases i with
  | lbz rt ra d => rw [decode_of_fits_lbz (Laws.TableRow.lbz rt ra d)]; simp [encode]
  | lbzu rt ra d => rw [decode_of_fits_lbzu (Laws.TableRow.lbzu rt ra d)]; simp [encode]
  | lbzux rt ra rb => rw [decode_of_fits_lbzux (Laws.TableRow.lbzux rt ra rb)]; simp [encode]
  | lbzx rt ra rb => rw [decode_of_fits_lbzx (Laws.TableRow.lbzx rt ra rb)]; simp [encode]

end Sys2Proof

namespace Sys2Proof.Machine

/-! ## What a load that completes leaves behind -/

/-- An allowed form whose read gives a byte below the top of the space: the byte in RT where the address does not
overwrite it, the address in the updated base, `pc` advanced, and the frame of R18. -/
theorem exec_of_memRead {i : Instr} {s s' : State} {b : Byte} (ha : formAllowed i s)
    (hr : s.memRead (loadAddress i s) = .byte b s') (hpc : s.pc ≠ topPc) :
    ∃ t, exec i s = .next t ∧ (updateReg i ≠ some (destReg i) → t.reg (destReg i) = b.setWidth 64) ∧
      (∀ ra, updateReg i = some ra → t.reg ra = (loadAddress i s).setWidth 64) ∧
      t.pc = s.pc + 4#32 ∧ t.draws = s'.draws ∧ s.unchangedExcept t (writes i) := by
  have h := exec_completes ha hr hpc
  refine ⟨_, h, fun hu => ?_, fun ra hu => ?_, exec_next_pc h, State.loaded_draws _ _ _ _ _,
    exec_next_unchangedExcept h⟩
  · rw [State.loaded_reg, if_neg hu, if_pos rfl]
  · rw [State.loaded_reg, if_pos hu]

/-- A form without update at a mapped, plain and unshared address. -/
theorem exec_of_no_update {i : Instr} {s : State} {b : Byte} (hu : updateReg i = none) (ha : formAllowed i s)
    (hm : s.mappedByte (loadAddress i s) = some b) (hp : s.isPlain (loadAddress i s) = true)
    (hs : s.isShared (loadAddress i s) = false) (hpc : s.pc ≠ topPc) :
    ∃ t, exec i s = .next t ∧ t.reg (destReg i) = b.setWidth 64 ∧ t.pc = s.pc + 4#32 ∧ t.draws = s.draws ∧
      s.unchangedExcept t [destReg i] := by
  obtain ⟨t, h, hbyte, -, hpc', hdraws, hframe⟩ := exec_of_memRead ha (State.memRead_plain hm hp hs) hpc
  rw [writes_eq, hu] at hframe
  exact ⟨t, h, hbyte (by simp [hu]), hpc', hdraws, hframe⟩

/-- An update form at a mapped, plain and unshared address; with RT = RA the address stays and the byte is lost
(R57). -/
theorem exec_of_update {i : Instr} {s : State} {b : Byte} {ra : RegNum} (hu : updateReg i = some ra)
    (ha : formAllowed i s) (hm : s.mappedByte (loadAddress i s) = some b)
    (hp : s.isPlain (loadAddress i s) = true) (hs : s.isShared (loadAddress i s) = false) (hpc : s.pc ≠ topPc) :
    ∃ t, exec i s = .next t ∧ t.reg ra = (loadAddress i s).setWidth 64 ∧
      (destReg i ≠ ra → t.reg (destReg i) = b.setWidth 64) ∧ t.pc = s.pc + 4#32 ∧ t.draws = s.draws ∧
      s.unchangedExcept t [destReg i, ra] := by
  obtain ⟨t, h, hbyte, hbase, hpc', hdraws, hframe⟩ := exec_of_memRead ha (State.memRead_plain hm hp hs) hpc
  rw [writes_eq, hu] at hframe
  exact ⟨t, h, hbase ra hu, fun hne => hbyte (by simp [hu, hne.symm]), hpc', hdraws, hframe⟩

/-! ## The forms without update (R53, R56) -/

/-- Settles O14. `lbz` updates no base, so its one load writes RT alone. -/
theorem lbzLoadsTheByteZeroExtended : Obligations.LbzLoadsTheByteZeroExtended := by
  refine fun rt ra d => ⟨decode_encode (.lbz rt ra d), fun s ea hea => ?_⟩
  have ha : formAllowed (.lbz rt ra d) s := .inl rfl
  obtain rfl : ea = loadAddress (.lbz rt ra d) s := hea
  exact ⟨fun b hm hp hs hpc => exec_of_no_update rfl ha hm hp hs hpc, exec_of_unmapped ha⟩

/-- Settles O17. As `lbz`, with the register RB, r0 included, in place of the displacement. -/
theorem lbzxLoadsTheByteZeroExtended : Obligations.LbzxLoadsTheByteZeroExtended := by
  refine fun rt ra rb => ⟨decode_encode (.lbzx rt ra rb), fun s ea hea => ?_⟩
  have ha : formAllowed (.lbzx rt ra rb) s := .inl rfl
  obtain rfl : ea = loadAddress (.lbzx rt ra rb) s := hea
  exact ⟨fun b hm hp hs hpc => exec_of_no_update rfl ha hm hp hs hpc, exec_of_unmapped ha⟩

/-! ## The update forms (R54, R55, R57) -/

/-- A valid update form keeps its byte: RA is not RT. -/
theorem exec_of_valid_update {i : Instr} {s : State} {b : Byte} {ra : RegNum} (hu : updateReg i = some ra)
    (hne : ra ≠ destReg i) (ha : formAllowed i s) (hm : s.mappedByte (loadAddress i s) = some b)
    (hp : s.isPlain (loadAddress i s) = true) (hs : s.isShared (loadAddress i s) = false) (hpc : s.pc ≠ topPc) :
    ∃ t, exec i s = .next t ∧ t.reg (destReg i) = b.setWidth 64 ∧ t.reg ra = (loadAddress i s).setWidth 64 ∧
      t.pc = s.pc + 4#32 ∧ t.draws = s.draws ∧ s.unchangedExcept t [destReg i, ra] := by
  obtain ⟨t, h, hbase, hbyte, hrest⟩ := exec_of_update hu ha hm hp hs hpc
  exact ⟨t, h, hbyte hne.symm, hbase, hrest⟩

/-- Settles O15. RA neither 0 nor RT makes the form well formed, so it runs under either policy and its byte stays. -/
theorem lbzuLoadsTheByteAndUpdatesTheBase : Obligations.LbzuLoadsTheByteAndUpdatesTheBase := by
  refine fun rt ra d => ⟨decode_encode (.lbzu rt ra d), fun s ea h0 hne hea => ?_⟩
  have ha : formAllowed (.lbzu rt ra d) s := .inl (by simp [Instr.wellFormed, h0, hne])
  obtain rfl : ea = loadAddress (.lbzu rt ra d) s := hea
  exact ⟨fun b hm hp hs hpc => exec_of_valid_update rfl hne ha hm hp hs hpc, exec_of_unmapped ha⟩

/-- Settles O16. As `lbzu`; the address is read from RA and RB before either is written, so RB may be RT or RA. -/
theorem lbzuxLoadsTheByteAndUpdatesTheBase : Obligations.LbzuxLoadsTheByteAndUpdatesTheBase := by
  refine fun rt ra rb => ⟨decode_encode (.lbzux rt ra rb), fun s ea h0 hne hea => ?_⟩
  have ha : formAllowed (.lbzux rt ra rb) s := .inl (by simp [Instr.wellFormed, h0, hne])
  obtain rfl : ea = loadAddress (.lbzux rt ra rb) s := hea
  exact ⟨fun b hm hp hs hpc => exec_of_valid_update rfl hne ha hm hp hs hpc, exec_of_unmapped ha⟩

/-- Under policy `refuse` an ill-formed instruction is refused with its own word. -/
theorem exec_of_not_wellFormed {i : Instr} {s : State} (hi : i.wellFormed = false) (hp : s.policy = .refuse) :
    exec i s = .refused (.invalidForm (encode i)) :=
  exec_of_decode_of_not_wellFormed (decode_encode i) hi hp

/-- Settles O18. RA = 0 or RA = RT is what well-formedness forbids, so `refuse` refuses the word; `snapshot` allows the
form, which then runs as any update form does. -/
theorem invalidFormsFollowThePolicy : Obligations.InvalidFormsFollowThePolicy := by
  intro i rt ra s ea hinv hform
  obtain ⟨rfl, hu, hi, rfl⟩ : destReg i = rt ∧ updateReg i = some ra ∧ i.wellFormed = false ∧ loadAddress i s = ea := by
    rcases hform with ⟨d, rfl, rfl⟩ | ⟨rb, rfl, rfl⟩
    · exact ⟨rfl, rfl, by simp [wellFormed_lbzu, invalidUpdateForm_of_or hinv], rfl⟩
    · exact ⟨rfl, rfl, by simp [wellFormed_lbzux, invalidUpdateForm_of_or hinv], rfl⟩
  exact ⟨exec_of_not_wellFormed hi, fun hsnap => ⟨fun b hm hp hs hpc =>
    exec_of_update hu (.inr hsnap) hm hp hs hpc, exec_of_unmapped (.inr hsnap)⟩⟩

/-! ## The zero-extended byte (R51) -/

/-- Loaded or drawn, one byte zero-extended is what the destination receives, where the address does not overwrite
it. -/
theorem exec_next_destReg_eq_setWidth {i : Instr} {s t : State} (h : exec i s = .next t)
    (hupd : updateReg i ≠ some (destReg i)) : ∃ b : Byte, t.reg (destReg i) = b.setWidth 64 := by
  obtain ⟨-, -, -, b, s', -, rfl⟩ := exec_next h
  exact ⟨b, by rw [State.loaded_reg, if_neg hupd, if_pos rfl]⟩

theorem toNat_setWidth_byte_le (b : Byte) : (b.setWidth 64).toNat ≤ 255 := by
  rw [BitVec.toNat_setWidth]
  omega

theorem extractLsb'_setWidth_byte (b : Byte) : (b.setWidth 64).extractLsb' 8 56 = 0#56 := by
  have hb := toNat_setWidth_byte_le b
  apply BitVec.eq_of_toNat_eq
  rw [BitVec.extractLsb'_toNat, Nat.shiftRight_eq_div_pow, Nat.div_eq_of_lt (by omega)]
  rfl

/-- Settles O22. The destination holds a zero-extended byte, and from an unshared address that byte is the mapped
one. -/
theorem loadedRegisterIsTheByteBelowZeros : Obligations.LoadedRegisterIsTheByteBelowZeros := by
  intro i s t hupd h
  obtain ⟨b, hb⟩ := exec_next_destReg_eq_setWidth h hupd
  refine ⟨hb ▸ toNat_setWidth_byte_le b, hb ▸ extractLsb'_setWidth_byte b, fun hs => ?_⟩
  obtain ⟨b', hm, hb'⟩ := exec_next_destReg h hupd hs
  rw [hm, hb', BitVec.setWidth_setWidth_of_le _ (by decide), BitVec.setWidth_eq]

/-! ## Status state and memory (R52) -/

/-- Settles O25. The frame of a completed instruction holds the status state and memory, and no address depends on the
status state. -/
theorem statusAndMemoryAreNeverWritten : Obligations.StatusAndMemoryAreNeverWritten := by
  refine ⟨fun i s t h => ?_, fun i s cr fpr vr xer => ?_⟩
  · obtain ⟨-, hstatus, -, hmem, -⟩ := exec_next_unchangedExcept h
    exact ⟨hstatus, hmem⟩
  · have hea : loadAddress i (s.withRegisters s.gpr ⟨cr, xer, fpr, vr⟩) = loadAddress i s :=
      loadAddress_eq_of_reads fun _ _ => rfl
    exact answersAlike_withRegisters hea

end Sys2Proof.Machine

/-! # Proofs: the outcome of a step and the end of a run

The checks of a step in their order (R63), then everything a run to `end_pc` can end in, with the state its end keeps
(R61, R62). -/

namespace Sys2Proof.Machine

/-! ## The first check that applies (R63) -/

/-- Settles O12. Fetch and decode have a lemma per answer; for an instruction, each check is made where the earlier
ones pass, and a form that passes all of them has read a byte and completes. -/
theorem stepOutcomeIsTheFirstCheckThatApplies : Obligations.StepOutcomeIsTheFirstCheckThatApplies := by
  refine fun s => ⟨step_of_fetch_none, fun w hf =>
    ⟨step_of_reservedEncoding hf, step_of_outOfScope hf, fun i hd => ?_⟩⟩
  rw [step_of_decode hf hd]
  by_cases hform : i.wellFormed = false ∧ s.policy = .refuse
  · obtain ⟨hi, hp⟩ := hform
    rw [if_pos ⟨hi, hp⟩]
    exact exec_of_decode_of_not_wellFormed hd hi hp
  have ha : formAllowed i s := not_not.mp (mt (not_formAllowed_iff i s).mp hform)
  rw [if_neg hform]
  cases hm : s.mappedByte (loadAddress i s) with
  | none => exact exec_of_unmapped ha hm
  | some b =>
    rw [if_neg (Option.some_ne_none b)]
    split_ifs with hp hpc
    · exact exec_of_nonPlain ha hm hp
    · exact exec_of_topPc ha hm (Bool.eq_true_of_not_eq_false hp) hpc
    · obtain ⟨b', s', hr⟩ := State.memRead_of_plain hm (Bool.eq_true_of_not_eq_false hp)
      obtain ⟨t, ht, -, -, hpc', -⟩ := exec_of_memRead ha hr hpc
      exact ⟨t, ht, hpc'⟩

/-! ## The ends of a run (R61, R62, R72) -/

/-- Everything a run of at most `n` steps can end in, after the `k` steps that completed: `end_pc` reached, all steps
made, or a next step that faults or is refused, and then the end keeps the state that step started from. -/
theorem run_cases (endPc : Addr) (n : Nat) (s : State) :
    ∃ k ≤ n, ∃ t : State, Sys2Proof.core.run k s = .next t ∧
      ((t.pc = endPc ∧ run endPc n s = .ended t) ∨
        (k = n ∧ t.pc ≠ endPc ∧ run endPc n s = .unfinished t) ∨
        (k < n ∧ ∃ f, step t = .fault f ∧ run endPc n s = .faulted f t) ∨
        (k < n ∧ ∃ r, step t = .refused r ∧ run endPc n s = .refused r t)) := by
  induction n generalizing s with
  | zero =>
    refine ⟨0, le_rfl, s, rfl, ?_⟩
    by_cases hend : s.pc = endPc
    · exact .inl ⟨hend, run_at_end hend⟩
    · exact .inr (.inl ⟨rfl, hend, by simp [run, hend]⟩)
  | succ n ih =>
    by_cases hend : s.pc = endPc
    · exact ⟨0, n.succ.zero_le, s, rfl, .inl ⟨hend, run_at_end hend⟩⟩
    cases hs : step s with
    | next u =>
      obtain ⟨k, hk, t, ht, hcases⟩ := ih u
      rw [run_step hend hs]
      refine ⟨k + 1, Nat.succ_le_succ hk, t, core_run_succ.mpr ⟨u, hs, ht⟩, ?_⟩
      simpa only [Nat.add_lt_add_iff_right, Nat.add_right_cancel_iff] using hcases
    | fault f =>
      exact ⟨0, n.succ.zero_le, s, rfl, .inr (.inr (.inl ⟨n.succ_pos, f, hs, by simp [run, hend, hs]⟩))⟩
    | refused r =>
      exact ⟨0, n.succ.zero_le, s, rfl, .inr (.inr (.inr ⟨n.succ_pos, r, hs, by simp [run, hend, hs]⟩))⟩

/-- Settles O36. Of the ends of a run, the faulted and the refused one each name the step that stopped and the state
it started from. -/
theorem abnormalEndsKeepTheStateBefore : Obligations.AbnormalEndsKeepTheStateBefore := by
  intro endPc n s t
  obtain ⟨k, -, u, hu, hcases⟩ := run_cases endPc n s
  refine ⟨fun f h => ?_, fun r h => ?_⟩
  · obtain ⟨hk, hs, rfl⟩ : k < n ∧ step u = .fault f ∧ t = u := by simpa [h] using hcases
    exact ⟨k, hk, hu, hs⟩
  · obtain ⟨hk, hs, rfl⟩ : k < n ∧ step u = .refused r ∧ t = u := by simpa [h] using hcases
    exact ⟨k, hk, hu, hs⟩

end Sys2Proof.Machine

/-! # Proofs: encoding, assembler lines and the sample words

Decoding and encoding undo each other (R35 to R45), and so do assembling a line and writing it (R46). -/

namespace Sys2Proof.Machine

/-! ## Words and instructions -/

/-- Settles O2. The word is decoded by its row, and its bytes in memory are read as the word. -/
theorem decodeOfEncodeIsTheInstruction : Obligations.DecodeOfEncodeIsTheInstruction :=
  fun i => ⟨decode_encode i, (decodeBytes_bytesOfWord (encode i)).trans (decode_encode i)⟩

/-- Settles O3. The word is put together again from its own fields, all of which the decoder tests or keeps. -/
theorem encodeOfDecodeIsTheWord : Obligations.EncodeOfDecodeIsTheWord :=
  fun _ _ => encode_of_decode

/-- Settles O1. Each word is decoded by computation. -/
theorem sampleWordsDecode : Obligations.SampleWordsDecode := by
  unfold Obligations.SampleWordsDecode
  decide

/-! ## Operands and fields (R39, R40, R46) -/

/-- An RA0 operand and its field determine each other: the literal zero is field 0, and `r0` is no spelling of it. -/
theorem fieldOfRa0_eq_some_iff {a : AsmReg} {ra : RegNum} : fieldOfRa0 a = some ra ↔ asmRa0 ra = a := by
  constructor
  · intro h
    cases a with
    | zero => cases h; rfl
    | r n =>
      rw [fieldOfRa0] at h
      split_ifs at h with hn
      cases h
      exact if_neg hn
  · rintro rfl
    unfold asmRa0
    split_ifs with h0
    · rw [h0]; rfl
    · exact if_neg h0

/-- A displacement in range and its field determine each other: the field is its two's complement. -/
theorem fieldOfDisp_eq_some_iff {x : Int} {d : Disp} : fieldOfDisp x = some d ↔ d.toInt = x := by
  have hlow := BitVec.le_toInt d
  have hhigh := BitVec.toInt_lt (x := d)
  unfold fieldOfDisp
  constructor
  · intro h
    split_ifs at h with hx
    obtain rfl := Option.some.inj h
    rw [BitVec.toInt_ofInt]
    exact Int.bmod_eq_of_le (by omega) (by omega)
  · rintro rfl
    rw [if_pos (by omega), BitVec.ofInt_toInt]

theorem assemble_asmOf (i : Instr) : assemble (asmOf i) = some i := by
  have hra0 (ra : RegNum) : fieldOfRa0 (asmRa0 ra) = some ra := fieldOfRa0_eq_some_iff.mpr rfl
  have hdisp (d : Disp) : fieldOfDisp d.toInt = some d := fieldOfDisp_eq_some_iff.mpr rfl
  cases i with
  | lbz rt ra d => simp [asmOf, assemble, hra0, hdisp]
  | lbzu rt ra d => simp [asmOf, assemble, hdisp]
  | lbzux rt ra rb => simp [asmOf, assemble]
  | lbzx rt ra rb => simp [asmOf, assemble, hra0]

/-- A line that assembles is one of four, whose operands give the instruction's fields. -/
theorem asmOf_of_assemble {l : AsmLine} {i : Instr} (h : assemble l = some i) : asmOf i = l := by
  obtain ⟨m, ops⟩ := l
  unfold assemble at h
  split at h
  case h_1 rt x base hops =>
    obtain rfl := hops
    split_ifs at h with hlbz hlbzu
    · split at h
      · cases h
        simp_all [asmOf, fieldOfRa0_eq_some_iff, fieldOfDisp_eq_some_iff]
      · cases h
    · split at h
      · cases h
        simp_all [asmOf, fieldOfDisp_eq_some_iff]
      · cases h
  case h_2 rt base rb hops =>
    obtain rfl := hops
    split_ifs at h with hlbzux hlbzx
    · split at h
      · cases h
        simp_all [asmOf]
      · cases h
    · split at h
      · cases h
        simp_all [asmOf, fieldOfRa0_eq_some_iff]
      · cases h
  case h_3 => cases h

/-- Settles O8. Operands and fields determine each other, and each mnemonic has its own shape of operands. -/
theorem assemblyLinesAndInstructionsMatch : Obligations.AssemblyLinesAndInstructionsMatch :=
  ⟨assemble_asmOf, fun _ _ => asmOf_of_assemble⟩

end Sys2Proof.Machine

/-! # Proofs: text at the program counter

The bytes of a text word, fetching them, and the steps that follow from a fetch (R14, R25, R71). -/

namespace Sys2Proof.Machine

/-! ## The bytes of a text word -/

/-- The four bytes of an aligned word do not wrap. -/
theorem toNat_add_of_aligned {a : Addr} (halign : a.toNat % 4 = 0) {k : Nat} (hk : k < 4) :
    (a + BitVec.ofNat 32 k).toNat = a.toNat + k := by
  have ha := a.isLt
  rw [BitVec.toNat_add, BitVec.toNat_ofNat]
  omega

/-- Inside a text word, fetch sees what memory holds. -/
theorem State.textByte_of_mem_text {s : State} {a : Addr} (halign : a.toNat % 4 = 0) (ha : a.toNat ∈ s.text)
    {k : Nat} (hk : k < 4) : s.textByte (a + BitVec.ofNat 32 k) = s.mem.read (a.toNat + k) := by
  have hword : a.toNat + k - (a.toNat + k) % 4 = a.toNat := by omega
  rw [State.textByte, State.inText, toNat_add_of_aligned halign hk, hword, if_pos (by simpa using ha)]

/-- A placed word's byte `k`, the first the most significant, lies `k` above its address. -/
theorem State.placeText_read (s : State) {a : Addr} (halign : a.toNat % 4 = 0) (w : InstrWord) {k : Nat} (hk : k < 4) :
    (s.placeText a w).mem.read (a.toNat + k) = some (w.extractLsb' (24 - 8 * k) 8) := by
  have h1 : (a + 1#32).toNat = a.toNat + 1 := toNat_add_of_aligned halign (k := 1) (by decide)
  have h2 : (a + 2#32).toNat = a.toNat + 2 := toNat_add_of_aligned halign (k := 2) (by decide)
  have h3 : (a + 3#32).toNat = a.toNat + 3 := toNat_add_of_aligned halign (k := 3) (by decide)
  simp only [State.placeText, Memory.read_write, h1, h2, h3]
  interval_cases k <;> simp

theorem State.mem_placeText_text (s : State) (a : Addr) (w : InstrWord) : a.toNat ∈ (s.placeText a w).text := by
  simp [State.placeText]

theorem State.textByte_placeText (s : State) {a : Addr} (halign : a.toNat % 4 = 0) (w : InstrWord) {k : Nat}
    (hk : k < 4) : (s.placeText a w).textByte (a + BitVec.ofNat 32 k) = some (w.extractLsb' (24 - 8 * k) 8) := by
  rw [State.textByte_of_mem_text halign (s.mem_placeText_text a w) hk, s.placeText_read halign w hk]

/-! ## Fetching a text word -/

/-- Four present text bytes at an aligned `pc` are a word. -/
theorem State.fetch_of_present {s : State} (halign : s.pc.toNat % 4 = 0)
    (h : ∀ k < 4, (s.textByte (s.pc + BitVec.ofNat 32 k)).isSome = true) : ∃ w, s.fetch = some w := by
  obtain ⟨b0, h0⟩ := Option.isSome_iff_exists.mp (h 0 (by decide))
  obtain ⟨b1, h1⟩ := Option.isSome_iff_exists.mp (h 1 (by decide))
  obtain ⟨b2, h2⟩ := Option.isSome_iff_exists.mp (h 2 (by decide))
  obtain ⟨b3, h3⟩ := Option.isSome_iff_exists.mp (h 3 (by decide))
  exact ⟨_, State.fetch_eq_some.mpr ⟨halign, b0, b1, b2, b3, by simpa using h0, h1, h2, h3, rfl⟩⟩

theorem State.fetch_placeText (s : State) (halign : s.pc.toNat % 4 = 0) (w : InstrWord) :
    (s.placeText s.pc w).fetch = some w := by
  have hbyte {k : Nat} (hk : k < 4) := s.textByte_placeText halign w hk
  refine State.fetch_eq_some.mpr ⟨halign, _, _, _, _, ?_, hbyte (k := 1) (by decide), hbyte (k := 2) (by decide),
    hbyte (k := 3) (by decide), (wordOfBytes_bytesOfWord w).symm⟩
  simpa using hbyte (k := 0) (by decide)

/-- Settles O11. The placed word is what the fetch gives, and it decodes to the table row's instruction. -/
theorem placedWordIsTheNextInstruction : Obligations.PlacedWordIsTheNextInstruction :=
  fun s nbits w _ halign hd =>
    step_of_decode (s.fetch_placeText halign (tableWord nbits w)) (decodeTableWord_eq_some.mp hd)

/-- Settles O10. The four bytes are the fetched word. -/
theorem stepRunsTheDecodedInstruction : Obligations.StepRunsTheDecodedInstruction :=
  fun _ b0 b1 b2 b3 _ halign h0 h1 h2 h3 hd =>
    step_of_decode (State.fetch_eq_some.mpr ⟨halign, b0, b1, b2, b3, h0, h1, h2, h3, rfl⟩) hd

/-! ## Launched states (R71) -/

/-- After a fetch that gave a word no step is a fetch fault: an instruction has other faults, and a word that is none is
refused. -/
theorem step_ne_fetchFault_of_fetch {s : State} {w : InstrWord} (hf : s.fetch = some w) (p : Addr) :
    step s ≠ .fault (.fetchFault p) := by
  intro h
  rcases decode_total w with ⟨i, hd⟩ | hd | hd
  · rw [step_of_decode hf hd] at h
    rcases exec_fault h with ⟨he, -⟩ | ⟨he, -⟩ <;> cases he
  · rw [step_of_reservedEncoding hf hd] at h; cases h
  · rw [step_of_outOfScope hf hd] at h; cases h

/-- Settles O31. By the invariant the four bytes of the text word at `pc` are present. -/
theorem launchedStatesFetchAtTheirEntry : Obligations.LaunchedStatesFetchAtTheirEntry := by
  rintro s entry ⟨hinv, rfl, htext⟩
  obtain ⟨w, hf⟩ := State.fetch_of_present hinv.pc_aligned fun k hk => by
    rw [State.textByte_of_mem_text hinv.pc_aligned htext hk]
    exact hinv.text_present _ htext k hk
  exact ⟨⟨w, hf⟩, step_ne_fetchFault_of_fetch hf⟩

end Sys2Proof.Machine

/-! # Proofs: shared addresses, the updated base and the absolute form

What a completed load leaves at a shared address (D15) and in its base (R54, R55, R57), and the addresses that `lbz`
reaches without a base (R30). -/

namespace Sys2Proof.Machine

/-- Settles O19. The read of a shared address answers the next draw and advances the counter; the load goes on as with
any byte. -/
theorem sharedAddressesGiveDraws : Obligations.SharedAddressesGiveDraws := by
  intro i s ha hm hp hs hpc
  obtain ⟨b, hb⟩ := Option.isSome_iff_exists.mp hm
  exact exec_of_memRead ha (State.memRead_shared hb hp hs) hpc

/-- The updated base after any update form that completes. -/
theorem exec_next_updateReg {i : Instr} {s t : State} {ra : RegNum} (hu : updateReg i = some ra)
    (h : exec i s = .next t) : t.reg ra = (loadAddress i s).setWidth 64 := by
  obtain ⟨-, -, -, b, s', -, rfl⟩ := exec_next h
  rw [State.loaded_reg, if_pos hu]

theorem exec_next_mapped {i : Instr} {s t : State} (h : exec i s = .next t) :
    (s.mappedByte (loadAddress i s)).isSome = true := by
  obtain ⟨-, -, -, b, s', hr, -⟩ := exec_next h
  exact (State.mappedByte_of_memRead hr).1

theorem extractLsb'_setWidth_addr (a : Addr) : (a.setWidth 64).extractLsb' 32 32 = 0#32 := by
  apply BitVec.eq_of_toNat_eq
  rw [BitVec.extractLsb'_toNat, BitVec.toNat_setWidth_of_le (by decide), Nat.shiftRight_eq_div_pow,
    Nat.div_eq_of_lt a.isLt]
  rfl

/-- Settles O23. The base holds the zero-extended address, which the completed read found mapped. -/
theorem updatedBaseIsTheCleanAddress : Obligations.UpdatedBaseIsTheCleanAddress := by
  intro i s t ra hu h
  rw [exec_next_updateReg hu h]
  exact ⟨BitVec.toNat_setWidth_of_le (by decide), extractLsb'_setWidth_addr _, exec_next_mapped h⟩

theorem setWidth_signExtend_disp (d : Disp) : (d.signExtend 64).setWidth 32 = d.signExtend 32 := by
  ext j hj
  rw [BitVec.getElem_setWidth, BitVec.getLsbD_eq_getElem (by omega), BitVec.getElem_signExtend,
    BitVec.getElem_signExtend]

/-- With the literal zero base the address is the displacement alone, sign-extended to 32 bits. -/
theorem loadAddress_lbz_zero (s : State) (rt : RegNum) (d : Disp) :
    loadAddress (.lbz rt 0 d) s = d.signExtend 32 := by
  simp only [loadAddress, State.ra0val, if_true, effectiveAddress, dispOffset, BitVec.zero_add]
  exact setWidth_signExtend_disp d

/-- A displacement with its sign bit clear stays as it is; any other moves up, to the top 32 KiB of the space. -/
theorem toNat_signExtend_disp (d : Disp) :
    (d.signExtend 32).toNat = if d.toNat < 0x8000 then d.toNat else d.toNat + 0xFFFF0000 := by
  have hd := d.isLt
  simp only [BitVec.toNat_signExtend, BitVec.msb_eq_decide, BitVec.toNat_setWidth, decide_eq_true_eq]
  split_ifs <;> omega

/-- Settles O27. The address is the sign-extended displacement; an address in either range is that of its own low 16
bits. -/
theorem absoluteFormReachesBothEnds : Obligations.AbsoluteFormReachesBothEnds := by
  intro s rt a
  have ha := a.isLt
  simp only [loadAddress_lbz_zero]
  constructor
  · rintro ⟨d, rfl⟩
    have hd := d.isLt
    rw [toNat_signExtend_disp]
    split_ifs <;> omega
  · intro hends
    refine ⟨a.setWidth 16, BitVec.eq_of_toNat_eq ?_⟩
    rw [toNat_signExtend_disp, BitVec.toNat_setWidth]
    split_ifs <;> omega

end Sys2Proof.Machine

/-! # Proofs: reset, the invariant and runs

The invariant after reset and over a step, then what any number of completed steps keeps and how far `pc` moves
(R13, R14, R22, R34, R71, R72). -/

namespace Sys2Proof.Machine

/-! ## Reset -/

/-- Settles O28. The registers' value is a lemma of the state; the rest is the reset record read off. -/
theorem resetHoldsTheNamedValues : Obligations.ResetHoldsTheNamedValues :=
  ⟨State.reset_reg, rfl, fun _ => rfl, rfl, fun a => ⟨State.reset_isPlain a, rfl⟩⟩

/-- Settles O29. Every list is empty after reset, and `pc` is 0. -/
theorem resetMeetsTheInvariant : Obligations.ResetMeetsTheInvariant where
  mem_wf := State.reset_mem_wf
  text_wf := by decide
  unmapped_wf := by decide
  nonPlain_wf := by decide
  shared_wf := by decide
  text_aligned := by decide
  text_present := by decide
  pc_aligned := by decide

/-! ## One step -/

/-- The frame of a step: outside some registers, `pc` and the draw counter nothing changes. -/
theorem step_next_unchangedExcept {s t : State} (h : step s = .next t) : ∃ rs, s.unchangedExcept t rs := by
  obtain ⟨w, i, -, -, he⟩ := step_next h
  exact ⟨writes i, exec_next_unchangedExcept he⟩

/-- The invariant speaks only of memory, the launch parameters and `pc`. -/
theorem State.Inv.of_unchangedExcept {s t : State} {rs : List RegNum} (hinv : s.Inv)
    (h : s.unchangedExcept t rs) (hpc : t.pc.toNat % 4 = 0) : t.Inv := by
  obtain ⟨-, -, -, hmem, htext, hunmapped, hnonPlain, hshared, -⟩ := h
  exact {
    mem_wf := hmem ▸ hinv.mem_wf
    text_wf := htext ▸ hinv.text_wf
    unmapped_wf := hunmapped ▸ hinv.unmapped_wf
    nonPlain_wf := hnonPlain ▸ hinv.nonPlain_wf
    shared_wf := hshared ▸ hinv.shared_wf
    text_aligned := htext ▸ hinv.text_aligned
    text_present := by rw [htext, hmem]; exact hinv.text_present
    pc_aligned := hpc }

/-- Settles O30. A step leaves memory and the parameters as they are and adds 4 to `pc`. -/
theorem stepKeepsTheInvariant : Obligations.StepKeepsTheInvariant := by
  intro s t hinv h
  obtain ⟨rs, hframe⟩ := step_next_unchangedExcept h
  refine hinv.of_unchangedExcept hframe ?_
  rw [step_next_pc_toNat h, Nat.add_mod_right]
  exact hinv.pc_aligned

/-! ## Frames in a row -/

theorem State.unchangedExcept_refl (s : State) : s.unchangedExcept s [] :=
  ⟨fun _ _ => rfl, rfl, fun _ => rfl, rfl, rfl, rfl, rfl, rfl, rfl⟩

theorem State.sameParameters_trans {s t u : State} (h : s.sameParameters t) (h' : t.sameParameters u) :
    s.sameParameters u := by
  obtain ⟨htext, hunmapped, hnonPlain, hshared, hpolicy⟩ := h
  obtain ⟨htext', hunmapped', hnonPlain', hshared', hpolicy'⟩ := h'
  exact ⟨htext'.trans htext, hunmapped'.trans hunmapped, hnonPlain'.trans hnonPlain, hshared'.trans hshared,
    hpolicy'.trans hpolicy⟩

theorem State.unchangedExcept_trans {s t u : State} {rs rs' : List RegNum} (h : s.unchangedExcept t rs)
    (h' : t.unchangedExcept u rs') : s.unchangedExcept u (rs ++ rs') := by
  obtain ⟨hreg, hstatus, hread, hmem, hparams⟩ := h
  obtain ⟨hreg', hstatus', hread', hmem', hparams'⟩ := h'
  refine ⟨fun r hr => ?_, hstatus'.trans hstatus, fun a => (hread' a).trans (hread a), hmem'.trans hmem,
    State.sameParameters_trans hparams hparams'⟩
  obtain ⟨hr, hr'⟩ : r ∉ rs ∧ r ∉ rs' := by simpa using hr
  exact (hreg' r hr').trans (hreg r hr)

/-! ## Completed runs -/

theorem core_run_next_unchangedExcept {k : Nat} {s t : State} (h : Sys2Proof.core.run k s = .next t) :
    ∃ rs, s.unchangedExcept t rs := by
  induction k generalizing s with
  | zero =>
    cases h
    exact ⟨[], State.unchangedExcept_refl _⟩
  | succ k ih =>
    obtain ⟨u, hs, hrun⟩ := core_run_succ.mp h
    obtain ⟨rs, hstep⟩ := step_next_unchangedExcept hs
    obtain ⟨rs', hrest⟩ := ih hrun
    exact ⟨rs ++ rs', State.unchangedExcept_trans hstep hrest⟩

/-- Settles O32. The frames of the steps compose, and what an address reads as depends on memory and the parameters
alone. -/
theorem runsChangeOnlyRegistersAndPc : Obligations.RunsChangeOnlyRegistersAndPc := by
  intro k s t h
  obtain ⟨rs, -, hstatus, -, hmem, hparams⟩ := core_run_next_unchangedExcept h
  have ⟨_, hunmapped, hnonPlain, _⟩ := hparams
  refine ⟨hmem, hstatus, hparams, fun a => ⟨?_, ?_⟩⟩
  · rw [State.mappedByte, State.mappedByte, hunmapped, hmem]
  · rw [State.isPlain, State.isPlain, hnonPlain]

theorem core_run_next_pc_toNat {k : Nat} {s t : State} (h : Sys2Proof.core.run k s = .next t) :
    t.pc.toNat = s.pc.toNat + 4 * k := by
  induction k generalizing s with
  | zero => cases h; rfl
  | succ k ih =>
    obtain ⟨u, hs, hrun⟩ := core_run_succ.mp h
    rw [ih hrun, step_next_pc_toNat hs]
    omega

/-- Settles O33. By induction on the number of steps, each of which adds 4. -/
theorem runsAdvancePcByFourEach : Obligations.RunsAdvancePcByFourEach :=
  fun _ _ _ => core_run_next_pc_toNat

/-- Settles O34. After 2^30 steps `pc` would be at least 2^32. -/
theorem noRunGoesOnForever : Obligations.NoRunGoesOnForever := by
  intro k s t hk h
  have hpc := core_run_next_pc_toNat h
  have hlt := t.pc.isLt
  omega

/-! ## Runs to `end_pc` (R72) -/

/-- The first `j` steps of a completed run complete. -/
theorem core_run_first_of_add {j k : Nat} {s u : State} (h : Sys2Proof.core.run (j + k) s = .next u) :
    ∃ t, Sys2Proof.core.run j s = .next t := by
  induction j generalizing s with
  | zero => exact ⟨s, rfl⟩
  | succ j ih =>
    rw [Nat.succ_add] at h
    obtain ⟨v, hs, hrun⟩ := core_run_succ.mp h
    obtain ⟨t, ht⟩ := ih hrun
    exact ⟨t, core_run_succ.mpr ⟨v, hs, ht⟩⟩

/-- Completed steps that stay at or below `end_pc` are steps of the run to `end_pc`. -/
theorem run_add_of_core_run {endPc : Addr} {k m : Nat} {s t : State} (h : Sys2Proof.core.run k s = .next t)
    (hle : s.pc.toNat + 4 * k ≤ endPc.toNat) : run endPc (k + m) s = run endPc m t := by
  induction k generalizing s with
  | zero => cases h; rw [Nat.zero_add]
  | succ k ih =>
    obtain ⟨u, hs, hrun⟩ := core_run_succ.mp h
    have hpc := step_next_pc_toNat hs
    have hne : s.pc ≠ endPc := by rintro rfl; omega
    rw [Nat.succ_add, run_step hne hs]
    exact ih hrun (by omega)

/-- A run that made `m` completed steps and is still below `end_pc` is unfinished. -/
theorem run_unfinished_of_lt {endPc : Addr} {m : Nat} {s t : State} (h : Sys2Proof.core.run m s = .next t)
    (hlt : s.pc.toNat + 4 * m < endPc.toNat) : run endPc m s = .unfinished t := by
  have hpc := core_run_next_pc_toNat h
  have hne : t.pc ≠ endPc := by rintro rfl; omega
  rw [← Nat.add_zero m, run_add_of_core_run h hlt.le]
  simp [run, hne]

/-- A run that ends has made completed steps up to `end_pc`. -/
theorem core_run_of_run_ended {endPc : Addr} {n : Nat} {s t : State} (h : run endPc n s = .ended t) :
    t.pc = endPc ∧ ∃ k, Sys2Proof.core.run k s = .next t := by
  obtain ⟨k, -, u, hu, hcases⟩ := run_cases endPc n s
  obtain ⟨hpc, rfl⟩ : u.pc = endPc ∧ t = u := by simpa [h] using hcases
  exact ⟨hpc, k, hu⟩

/-- Settles O35. Each completed step moves `pc` by 4, so the number of steps and the distance to `end_pc` determine each
other. -/
theorem runsEndInExactlyTheDistance : Obligations.RunsEndInExactlyTheDistance := by
  refine ⟨fun endPc n s t hdist h => ⟨fun m hm => ?_, fun m hm => ?_⟩, fun _ _ _ => run_at_end,
    fun endPc n s t h => ?_⟩
  · have hend : t.pc = endPc := BitVec.eq_of_toNat_eq ((core_run_next_pc_toNat h).trans hdist)
    obtain ⟨j, rfl⟩ := Nat.exists_eq_add_of_le hm
    rw [run_add_of_core_run h hdist.le, run_at_end hend]
  · obtain ⟨j, rfl⟩ := Nat.exists_eq_add_of_le hm.le
    obtain ⟨u, hu⟩ := core_run_first_of_add h
    exact ⟨u, run_unfinished_of_lt hu (by omega)⟩
  · obtain ⟨rfl, k, hk⟩ := core_run_of_run_ended h
    have hpc := core_run_next_pc_toNat hk
    have hsteps : (t.pc.toNat - s.pc.toNat) / 4 = k := by omega
    exact ⟨rfl, by omega, by omega, hsteps ▸ hk⟩

end Sys2Proof.Machine
